-- ==== Sys2Proof/Word.lean ====
section
/-! DEFINITION. The word types of the machine (00_scope.md R9, R11). -/

namespace Sys2Proof

/-- A byte of memory, a parameter byte, the FLAGS register. -/
abbrev Byte := BitVec 8

/-- `Bits16`: PC, SP, a general register, an ALU result, an address (R9). -/
abbrev Word := BitVec 16

/-- The 32-bit word one instruction fetch reads (R81). -/
abbrev Word32 := BitVec 32

/-- The 4-bit index of a general register (R27). -/
abbrev RegIdx := Fin 16

end Sys2Proof
end

