-- ==== Sys2Proof/Syntax.lean ====
section
/-! DEFINITION. The instructions: the 18 mnemonics, the instruction unit of one opcode byte and three parameter bytes,
and the decoded instruction with its operands (30_encoding.md R80 to R85). -/

namespace Sys2Proof

/-- The 18 operations of this core (R3, R86); every row of spec/opcode_table.json. -/
inductive Mnemonic where
  | nop | jmp | j | call | ret
  | ldi | ldm | mov | stm
  | addi | add | sub | cmpi
  | tsti | or | xor
  | mul2 | div2
  deriving DecidableEq, Repr

/-- Every mnemonic once, in the order of R86's table. -/
def Mnemonic.all : List Mnemonic :=
  [.nop, .jmp, .j, .call, .ret, .ldi, .ldm, .mov, .stm, .addi, .add, .sub, .cmpi, .tsti, .or, .xor, .mul2, .div2]

/-- The source's `Instruction`: "opcode (1 byte) followed by exactly 3 parameters bytes" (R80). -/
structure RawInstr where
  opcode : Byte
  param0 : Byte
  param1 : Byte
  param2 : Byte
  deriving DecidableEq, Repr

/-- The errors a host call returns to its caller (R207, R208); they are no step faults and leave the run alone. -/
inductive CallError where
  /-- Cause code 6: an instruction constructed with other than 3 parameter bytes (R82, R207). Safe. -/
  | invalidArgument
  /-- Cause code 7: a `FillMemory` that exceeds the address space (R62, R208). Safe. -/
  | outOfRange
  deriving DecidableEq, Repr

/-- A decoded instruction: the operation and the operand fields its format names (R83, R85). A register index taken from
a nibble is a `RegIdx`; LDI, LDM, STM and TSTI name their register by the whole byte param0 (R28). -/
inductive Instr where
  /-- R120 -/
  | nop
  /-- R121 -/
  | jmp (target : Word)
  /-- R123: `cond` is the whole byte param0. -/
  | j (cond : Byte) (target : Word)
  /-- R124 -/
  | call (target : Word)
  /-- R127 -/
  | ret
  /-- R140 -/
  | ldi (r : Byte) (imm : Word)
  /-- R141 -/
  | ldm (r : Byte) (addr : Word)
  /-- R143 -/
  | mov (x y : RegIdx)
  /-- R142 -/
  | stm (r : Byte) (addr : Word)
  /-- R174 -/
  | addi (x : RegIdx) (imm : Word)
  /-- R173 -/
  | add (x y : RegIdx)
  /-- R175 -/
  | sub (x y : RegIdx)
  /-- R176 -/
  | cmpi (x : RegIdx) (imm : Word)
  /-- R170 -/
  | tsti (r : Byte) (imm : Word)
  /-- R172 -/
  | or (x y : RegIdx)
  /-- R171 -/
  | xor (x y : RegIdx)
  /-- R177 -/
  | mul2 (x y z : RegIdx)
  /-- R178 -/
  | div2 (x y z : RegIdx)
  deriving DecidableEq, Repr

/-- The operation of an instruction. -/
def Instr.mnemonic : Instr → Mnemonic
  | .nop => .nop
  | .jmp _ => .jmp
  | .j _ _ => .j
  | .call _ => .call
  | .ret => .ret
  | .ldi _ _ => .ldi
  | .ldm _ _ => .ldm
  | .mov _ _ => .mov
  | .stm _ _ => .stm
  | .addi _ _ => .addi
  | .add _ _ => .add
  | .sub _ _ => .sub
  | .cmpi _ _ => .cmpi
  | .tsti _ _ => .tsti
  | .or _ _ => .or
  | .xor _ _ => .xor
  | .mul2 _ _ _ => .mul2
  | .div2 _ _ _ => .div2

end Sys2Proof
end

