-- ==== Sys2Proof/WellFormed.lean ====
section
/-! DEFINITION. When an instruction is well formed: it names only registers that exist. The types already bound every
index taken from a nibble; the whole-byte indices of LDI, LDM, STM and TSTI are checked here (10_state.md R28). An
instruction that is not well formed still decodes and runs: it raises the fault of R204. -/

namespace Sys2Proof

/-- The whole-byte register index names one of the 16 registers (R28). -/
def wholeByteIndexOk (r : Byte) : Bool := decide (r.toNat < 16)

/-- Well-formedness of an instruction (R28, R204). -/
def Instr.wellFormed : Instr → Bool
  | .nop => true
  | .jmp _ => true
  | .j _ _ => true
  | .call _ => true
  | .ret => true
  | .ldi r _ => wholeByteIndexOk r
  | .ldm r _ => wholeByteIndexOk r
  | .mov _ _ => true
  | .stm r _ => wholeByteIndexOk r
  | .addi _ _ => true
  | .add _ _ => true
  | .sub _ _ => true
  | .cmpi _ _ => true
  | .tsti r _ => wholeByteIndexOk r
  | .or _ _ => true
  | .xor _ _ => true
  | .mul2 _ _ _ => true
  | .div2 _ _ _ => true

end Sys2Proof
end

