-- ==== Sys2Proof/Decode.lean ====
section
/-! DEFINITION. The instruction decoder, the 256-entry dispatch table and, after them, the encoder (30_encoding.md). All
three are parametric in the open parameter `OPCODE_MAP` (D2); `defaultOpcodeMap` is the spec's default of it. -/

namespace Sys2Proof

/-- A value of the parameter `OPCODE_MAP`: the opcode byte of each mnemonic (R86, D2). -/
abbrev OpcodeMap := Mnemonic → Byte

/-- "Whatever values `OPCODE_MAP` takes, it is injective" (R86). -/
abbrev OpcodeMap.Valid (m : OpcodeMap) : Prop := ∀ k l : Mnemonic, m k = m l → k = l

/-- The default of `OPCODE_MAP`, R86's table. PRESUMED, log entry 1: the spec takes the values from the published Chip16
set, not from its source. Unsafe for a claim about concrete bytes. -/
def defaultOpcodeMap : OpcodeMap
  | .nop => 0x00
  | .jmp => 0x10
  | .j => 0x12
  | .call => 0x14
  | .ret => 0x15
  | .ldi => 0x20
  | .ldm => 0x22
  | .mov => 0x24
  | .stm => 0x30
  | .addi => 0x40
  | .add => 0x41
  | .sub => 0x51
  | .cmpi => 0x53
  | .tsti => 0x63
  | .or => 0x71
  | .xor => 0x81
  | .mul2 => 0x92
  | .div2 => 0xA2

/-! ### Decoding -/

/-- Why a decode gives no instruction. -/
inductive DecodeReject where
  /-- The dispatch table has no handler for this opcode byte (R88, R105). -/
  | unimplementedOpcode (opcode : Byte)
  /-- The bytes are no instruction unit: not an opcode and exactly 3 parameter bytes (R82). -/
  | malformed (e : CallError)
  deriving DecidableEq, Repr

/-- Constructing an instruction unit; any other number of parameter bytes is an `InvalidArgument` error (R82, R207). -/
def RawInstr.construct (opcode : Byte) (parameters : List Byte) : Except CallError RawInstr :=
  match parameters with
  | [p0, p1, p2] => .ok ⟨opcode, p0, p1, p2⟩
  | _ => .error .invalidArgument

/-- The decoder's split of the fetched word: opcode w[7:0], param0 w[15:8], param1 w[23:16], param2 w[31:24] (R81). -/
def splitWord (w : Word32) : RawInstr :=
  ⟨w.extractLsb' 0 8, w.extractLsb' 8 8, w.extractLsb' 16 8, w.extractLsb' 24 8⟩

/-- `byte & 0xF` (R83). -/
def lowNibble (b : Byte) : RegIdx := (b.extractLsb' 0 4).toFin

/-- `byte >> 4` (R83). -/
def highNibble (b : Byte) : RegIdx := (b.extractLsb' 4 4).toFin

/-- `x` = param0[3:0] (R83). -/
def RawInstr.x (r : RawInstr) : RegIdx := lowNibble r.param0

/-- `y` = param0[7:4] (R83). -/
def RawInstr.y (r : RawInstr) : RegIdx := highNibble r.param0

/-- `z` = param1[3:0] (R83). -/
def RawInstr.z (r : RawInstr) : RegIdx := lowNibble r.param1

/-- `imm16` = param2:param1 (R83). -/
def RawInstr.imm16 (r : RawInstr) : Word := r.param2 ++ r.param1

/-- The dispatch table's entry for an opcode byte: the operation, or none (R89). -/
def dispatchEntry (m : OpcodeMap) (opcode : Byte) : Option Mnemonic :=
  Mnemonic.all.find? (fun k => m k == opcode)

/-- The operand fields each format names (R83, R85); the bits it does not name are not read (R87). -/
def RawInstr.operands (r : RawInstr) : Mnemonic → Instr
  | .nop => .nop
  | .jmp => .jmp r.imm16
  | .j => .j r.param0 r.imm16
  | .call => .call r.imm16
  | .ret => .ret
  | .ldi => .ldi r.param0 r.imm16
  | .ldm => .ldm r.param0 r.imm16
  | .mov => .mov r.x r.y
  | .stm => .stm r.param0 r.imm16
  | .addi => .addi r.x r.imm16
  | .add => .add r.x r.y
  | .sub => .sub r.x r.y
  | .cmpi => .cmpi r.x r.imm16
  | .tsti => .tsti r.param0 r.imm16
  | .or => .or r.x r.y
  | .xor => .xor r.x r.y
  | .mul2 => .mul2 r.x r.y r.z
  | .div2 => .div2 r.x r.y r.z

/-- Decoding an instruction unit: the opcode byte alone selects the operation (R87, R107). -/
def decodeRaw (m : OpcodeMap) (r : RawInstr) : Except DecodeReject Instr :=
  match dispatchEntry m r.opcode with
  | some k => .ok (r.operands k)
  | none => .error (.unimplementedOpcode r.opcode)

/-- Decoding a fetched word (R81, R107), total on all 2^32 words. -/
def decodeWith (m : OpcodeMap) (w : Word32) : Except DecodeReject Instr := decodeRaw m (splitWord w)

/-- Decoding any bytes, in memory order. -/
def decodeBytesWith (m : OpcodeMap) (bytes : List Byte) : Except DecodeReject Instr :=
  match bytes with
  | [] => .error (.malformed .invalidArgument)
  | opcode :: parameters =>
    match RawInstr.construct opcode parameters with
    | .ok r => decodeRaw m r
    | .error e => .error (.malformed e)

/-- The decoder with the default opcode bytes. -/
def decode (w : Word32) : Except DecodeReject Instr := decodeWith defaultOpcodeMap w

/-- Byte `k` of a number, byte 0 the least significant. -/
def byteOf (w k : Nat) : Byte := BitVec.ofNat 8 (w >>> (8 * k))

/-- The four bytes, in memory order, of the instruction whose table bits are `w`; the bits from `nbits` on are 0. -/
def tableBytes (nbits w : Nat) : List Byte :=
  let v := w % 2 ^ nbits
  [byteOf v 0, byteOf v 1, byteOf v 2, byteOf v 3]

/-- What the decoder reads from a table word. -/
def decodeTableWord (nbits w : Nat) : Option Instr :=
  match decodeBytesWith defaultOpcodeMap (tableBytes nbits w) with
  | .ok i => some i
  | .error _ => none

/-! ### Encoding -/

/-- `{high, low}` of two register nibbles. -/
def packNibbles (high low : RegIdx) : Byte := BitVec.ofFin (w := 4) high ++ BitVec.ofFin (w := 4) low

/-- The low byte of an immediate, param1 (R83). -/
def lowByte (v : Word) : Byte := v.extractLsb' 0 8

/-- The high byte of an immediate, param2 (R83). -/
def highByte (v : Word) : Byte := v.extractLsb' 8 8

/-- The instruction unit of an instruction: its format's fields, 0 in every bit not read (R85, R90). -/
def encodeRaw (m : OpcodeMap) (i : Instr) : RawInstr :=
  match i with
  | .nop => ⟨m .nop, 0, 0, 0⟩
  | .jmp t => ⟨m .jmp, 0, lowByte t, highByte t⟩
  | .j c t => ⟨m .j, c, lowByte t, highByte t⟩
  | .call t => ⟨m .call, 0, lowByte t, highByte t⟩
  | .ret => ⟨m .ret, 0, 0, 0⟩
  | .ldi r v => ⟨m .ldi, r, lowByte v, highByte v⟩
  | .ldm r a => ⟨m .ldm, r, lowByte a, highByte a⟩
  | .mov x y => ⟨m .mov, packNibbles y x, 0, 0⟩
  | .stm r a => ⟨m .stm, r, lowByte a, highByte a⟩
  | .addi x v => ⟨m .addi, packNibbles 0 x, lowByte v, highByte v⟩
  | .add x y => ⟨m .add, packNibbles y x, 0, 0⟩
  | .sub x y => ⟨m .sub, packNibbles y x, 0, 0⟩
  | .cmpi x v => ⟨m .cmpi, packNibbles 0 x, lowByte v, highByte v⟩
  | .tsti r v => ⟨m .tsti, r, lowByte v, highByte v⟩
  | .or x y => ⟨m .or, packNibbles y x, 0, 0⟩
  | .xor x y => ⟨m .xor, packNibbles y x, 0, 0⟩
  | .mul2 x y z => ⟨m .mul2, packNibbles y x, packNibbles 0 z, 0⟩
  | .div2 x y z => ⟨m .div2, packNibbles y x, packNibbles 0 z, 0⟩

/-- The unit as the 32-bit word a fetch reads (R81). -/
def joinWord (r : RawInstr) : Word32 := r.param2 ++ (r.param1 ++ (r.param0 ++ r.opcode))

/-- The word of an instruction. -/
def encodeWith (m : OpcodeMap) (i : Instr) : Word32 := joinWord (encodeRaw m i)

/-- The bytes of an instruction, in memory order (R80). -/
def encodeBytesWith (m : OpcodeMap) (i : Instr) : List Byte :=
  let r := encodeRaw m i
  [r.opcode, r.param0, r.param1, r.param2]

/-- The encoder with the default opcode bytes. -/
def encode (i : Instr) : Word32 := encodeWith defaultOpcodeMap i

/-- The bits of the word that an operation reads: its opcode byte and the fields of its format (R85). -/
def readMask : Mnemonic → Word32
  | .nop => 0x000000FF
  | .jmp => 0xFFFF00FF
  | .j => 0xFFFFFFFF
  | .call => 0xFFFF00FF
  | .ret => 0x000000FF
  | .ldi => 0xFFFFFFFF
  | .ldm => 0xFFFFFFFF
  | .mov => 0x0000FFFF
  | .stm => 0xFFFFFFFF
  | .addi => 0xFFFF0FFF
  | .add => 0x0000FFFF
  | .sub => 0x0000FFFF
  | .cmpi => 0xFFFF0FFF
  | .tsti => 0xFFFFFFFF
  | .or => 0x0000FFFF
  | .xor => 0x0000FFFF
  | .mul2 => 0x000FFFFF
  | .div2 => 0x000FFFFF

end Sys2Proof
end

