-- ==== Sys2Proof/Config.lean ====
section
/-! DEFINITION. What one machine fixes for its whole life (00_scope.md R9, 10_state.md R21), and the free values: the
values the spec leaves open, each an opaque constant about which nothing can be proved. -/

namespace Sys2Proof.Config

/-- Size of the one address space, in bytes (R9, R50). -/
def memorySize : Nat := 65536

/-- `PC` after reset (R9, R22). -/
def pcReset : Word := 0x0000

/-- `SP` after reset (R9, R26). -/
def spReset : Word := 0xFDF0

/-- `MUL2_CARRY(a, b)` on the operands for which R179 settles no value: an open total function of the operands (D8).
DESIGN CHOICE, log entry 5: safe, no value of it can be proved. -/
opaque mul2CarryUnsettled : Word → Word → Bool

/-- The draw `PARTIAL_WRITE_BYTE` (R56, D10): does the out-of-range 16-bit write at 0xFFFF leave the value's low byte
there (true) or the old byte (false)? Applied to the state's draw counter. DESIGN CHOICE, log entry 6: safe. -/
opaque partialWriteStores : Nat → Bool

/-- The draw `CYCLES_ON_FAULT` (R35, D12): does a step that faults count in `CYCLES`? Applied to the state's draw
counter. DESIGN CHOICE, log entry 7: safe. -/
opaque faultingStepCounts : Nat → Bool

/-- A colour of the palette: three components of no stated width (R37; 91_not_in_source.md N16). -/
structure Rgb where
  red   : Nat
  green : Nat
  blue  : Nat
  deriving DecidableEq, Repr, Inhabited

/-- The 16-entry fixed palette of the graphics co-processor: constants the spec gives no values for and no rule reads
(R21, R37, N16). DESIGN CHOICE, log entry 17: safe. -/
opaque palette : Fin 16 → Rgb

end Sys2Proof.Config
end

