-- ==== Sys2Proof/Machine/State.lean ====
section
/-! DEFINITION. The machine's state, the reasons a step can stop, and the state after reset (10_state.md R20,
70_reset_and_hazards.md R230). -/

namespace Sys2Proof.Machine

/-- Memory: (address, byte) pairs, the addresses strictly rising, no entry equal to what an unlisted address reads as
(`Memory.wf` in Machine/Ops.lean). -/
abbrev Memory := List Host.Cell

/-- The graphics command vocabulary: a closed enumeration whose encoding the spec does not give (R63, D18; log
entry 16). -/
inductive GpuCommand where
  | nop
  | spr
  /-- any command the co-processor does not recognise -/
  | other
  deriving DecidableEq, Repr

/-- The mutable state of the graphics co-processor (R37); the palette is a constant (`Config.palette`). -/
structure Gpu where
  bg      : BitVec 4
  spriteW : Byte
  spriteH : Byte
  hflip   : Bool
  vflip   : Bool
  deriving DecidableEq, Repr

/-- The reasons of `raise Fault(reason)` (60_exceptions.md R201 to R206, R209), with what each records. -/
inductive FaultReason where
  /-- Cause code 1 (R202): raised by the dispatch of an opcode byte with no handler. Safe: the spec's own fault. -/
  | unimplementedOpcode (opcode : Byte)
  /-- Cause code 2 (R203): raised by the fetch, LDM, STM, CALL and RET on an access past the address space. Safe: the
  spec's own fault. -/
  | memoryOutOfRange (address : Word) (width : Nat)
  /-- Cause code 3 (R204, D3): raised by LDI, LDM, STM and TSTI on a register index byte of 16 or more. Safe: a stop
  where the source is silent, log entry 10. -/
  | registerIndexOutOfRange (index : Byte)
  /-- Cause code 4 (R205, D9): raised by DIV2 on a zero divisor. Safe: a stop where the source is silent, log
  entry 11. -/
  | divideByZero
  /-- Cause code 5 (R206): raised by the graphics co-processor on a command it does not know; no instruction reaches
  it (R65). Safe: the spec's own fault. -/
  | unimplementedCommand (command : GpuCommand)
  deriving DecidableEq, Repr

/-- `RUN` (R36). -/
inductive RunState where
  | running
  | faulted (reason : FaultReason)
  deriving DecidableEq, Repr

/-- The whole state of the CORE (R20), and the model's own counter of draws. -/
structure State where
  pc     : Word
  sp     : Word
  gp     : Vector Word 16
  flags  : Byte
  mem    : Memory
  cycles : Nat
  gpu    : Gpu
  run    : RunState
  /-- The model's own field, no state of the spec: how many free values have been drawn. DESIGN CHOICE, log entry 8. -/
  draws  : Nat
  deriving DecidableEq, Repr

/-- The outcomes of a step that end the run. -/
inductive Fault where
  /-- `raise Fault(reason)` (R201): raised by the fetch, the dispatch, a handler or the graphics co-processor; `left` is
  the state the step leaves, with the effects of the lines before the raise and `RUN` = Faulted(reason). Safe: the
  spec's own fatal condition. -/
  | raised (reason : FaultReason) (left : State)
  /-- A step asked of a machine whose `RUN` is Faulted(reason): there is none, and the state is unchanged (R109, D15).
  Raised by `executeCycleWith` alone. Safe: a stuck state. DESIGN CHOICE, log entry 9. -/
  | runIsOver (reason : FaultReason) (unchanged : State)
  deriving DecidableEq, Repr

/-- The outcomes of a step that the model gives no meaning. -/
inductive Refusal where
  /-- Raised by an arm of `exec` whose instruction has no meaning yet; no arm does. Safe. -/
  | notModelled (mnemonic : String)
  deriving DecidableEq, Repr

/-- What one step or one handler answers. -/
abbrev Result := Host.Outcome State Fault Refusal

/-- The values the spec leaves open at construction: the draws `GP_RESET`, `FLAGS_RESET_CZON` and `GPU_RESET` (R10,
D5, D6, D18). -/
structure ResetDraws where
  gp  : Vector Word 16
  c   : Bool
  z   : Bool
  o   : Bool
  n   : Bool
  gpu : Gpu
  deriving DecidableEq, Repr

/-- The FLAGS byte of a draw of C, Z, O and N: reserved bits 0 (R30, R230). -/
def ResetDraws.flags (d : ResetDraws) : Byte :=
  (if d.c then 0x02 else 0) ||| (if d.z then 0x04 else 0) ||| (if d.o then 0x40 else 0) ||| (if d.n then 0x80 else 0)

/-- The state right after construction, for one value of the draws (R230). -/
def State.resetWith (d : ResetDraws) : State where
  pc     := Config.pcReset
  sp     := Config.spReset
  gp     := d.gp
  flags  := d.flags
  mem    := []
  cycles := 0
  gpu    := d.gpu
  run    := .running
  draws  := 0

/-- The draws of the one reset state the interface asks for: all zero. DESIGN CHOICE, log entries 2, 3 and 4: unsafe, the
spec gives none of these values. -/
def ResetDraws.zero : ResetDraws where
  gp  := Vector.replicate 16 0
  c   := false
  z   := false
  o   := false
  n   := false
  gpu := ⟨0, 0, 0, false, false⟩

/-- The machine right after reset (R230), with the register values of log entries 2, 3 and 4. -/
def State.reset : State := State.resetWith ResetDraws.zero

end Sys2Proof.Machine
end

