-- ==== Sys2Proof/Machine/Ops.lean ====
section
/-! DEFINITION. The operations every handler goes through: the bytes of memory, the register file (10_state.md R38), the
raise of a fault (60_exceptions.md R201) and the accesses of the memory bus (20_memory.md R52 to R56). -/

namespace Sys2Proof.Machine

/-! ### Bytes of memory -/

/-- What an address that memory does not list reads as: memory is "zero-initialized" (R51, R230). -/
def Memory.unlisted : Byte := 0x00

/-- The canonical form: addresses strictly rising and inside the address space, no entry that an unlisted address would
read as. Equal memories are then equal lists. -/
abbrev Memory.wf (m : Memory) : Prop :=
  m.Pairwise (fun p q => p.1 < q.1) ∧ ∀ p ∈ m, p.1 < Config.memorySize ∧ p.2 ≠ Memory.unlisted

/-- `MEM[a]`. -/
def Memory.read : Memory → Nat → Byte
  | [], _ => Memory.unlisted
  | (b, v) :: rest, a => if a = b then v else Memory.read rest a

/-- Lists the byte `v` at `a`, keeping the addresses rising. -/
def Memory.insert : Memory → Nat → Byte → Memory
  | [], a, v => [(a, v)]
  | (b, w) :: rest, a, v =>
    if a < b then (a, v) :: (b, w) :: rest
    else if a = b then (a, v) :: rest
    else (b, w) :: Memory.insert rest a v

/-- Drops the address `a`. -/
def Memory.erase (m : Memory) (a : Nat) : Memory := m.filter (fun p => p.1 != a)

/-- `MEM[a] <- v`, in canonical form: a byte that an unlisted address reads as is not listed. -/
def Memory.write (m : Memory) (a : Nat) (v : Byte) : Memory :=
  if v = Memory.unlisted then Memory.erase m a else Memory.insert m a v

/-- Writes bytes at rising addresses from `a`. -/
def Memory.writeBytes (m : Memory) (a : Nat) : List Byte → Memory
  | [] => m
  | v :: rest => Memory.writeBytes (Memory.write m a v) (a + 1) rest

/-- The byte at an address, as every statement reads memory. -/
def readByte (s : State) (a : Nat) : Byte := Memory.read s.mem a

/-- `MEM[a] <- v`. -/
def writeByte (s : State) (a : Nat) (v : Byte) : State := { s with mem := Memory.write s.mem a v }

/-! ### The register file (R38) -/

/-- `GetPC`. -/
def getPc (s : State) : Word := s.pc

/-- `SetPC(v)`. -/
def setPc (s : State) (v : Word) : State := { s with pc := v }

/-- `GetSP`. -/
def getSp (s : State) : Word := s.sp

/-- `SetSP(v)`. -/
def setSp (s : State) (v : Word) : State := { s with sp := v }

/-- `ReadGP(i)`: no register is hard-wired or aliased (R27). -/
def readGp (s : State) (i : RegIdx) : Word := s.gp.get i

/-- `WriteGP(i, v)`. -/
def writeGp (s : State) (i : RegIdx) (v : Word) : State := { s with gp := s.gp.set i.val v i.isLt }

/-- `IncrementPC`: modulo 2^16, no fault (R24). -/
def incrementPc (s : State) : State := setPc s (BitVec.ofNat 16 (s.pc.toNat + 4))

/-- `IncrementSP`: modulo 2^16, no fault (R26). -/
def incrementSp (s : State) : State := setSp s (BitVec.ofNat 16 (s.sp.toNat + 2))

/-- `DecrementSP`: modulo 2^16, no fault (R26). -/
def decrementSp (s : State) : State := setSp s (BitVec.ofInt 16 ((s.sp.toNat : Int) - 2))

/-! ### Faults

`raiseFault` is the one operation that every error of the core goes through. There is no trap entry and no return: a fault
is fatal to the run (R200, R211, R212). -/

/-- `RUN <- Faulted(reason)`, and `CYCLES` at the draw `CYCLES_ON_FAULT`, n or n + 1 (R201, R35; log entry 7). -/
def faultedState (reason : FaultReason) (s : State) : State :=
  { s with
    run    := .faulted reason
    cycles := if Config.faultingStepCounts s.draws then s.cycles + 1 else s.cycles
    draws  := s.draws + 1 }

/-- `raise Fault(reason)`: the step ends here, the changes made before stay, and the fault is the step's outcome
(R201). -/
def raiseFault (reason : FaultReason) (s : State) : Result := .fault (.raised reason (faultedState reason s))

/-- The cause codes of R209 (D21). -/
def FaultReason.code : FaultReason → Nat
  | .unimplementedOpcode _ => 1
  | .memoryOutOfRange _ _ => 2
  | .registerIndexOutOfRange _ => 3
  | .divideByZero => 4
  | .unimplementedCommand _ => 5

/-- The cause codes of the errors of host calls (R209, D21). -/
def callErrorCode : CallError → Nat
  | .invalidArgument => 6
  | .outOfRange => 7

/-- The later lines of a handler, run only if the earlier ones did not raise. -/
def andThen (r : Result) (next : State → Result) : Result :=
  match r with
  | .next s => next s
  | .fault f => .fault f
  | .refused f => .refused f

/-! ### The memory bus -/

/-- An access of `n` bytes at `a` is in range iff `a + n <= 65536`; addresses do not wrap (R54). -/
def inRange (a : Word) (n : Nat) : Bool := decide (a.toNat + n ≤ Config.memorySize)

/-- The little-endian 16-bit value at `a` (R53). -/
def wordAt (m : Memory) (a : Nat) : Word := Memory.read m (a + 1) ++ Memory.read m a

/-- The little-endian 32-bit value at `a` (R53). -/
def word32At (m : Memory) (a : Nat) : Word32 :=
  Memory.read m (a + 3) ++ (Memory.read m (a + 2) ++ (Memory.read m (a + 1) ++ Memory.read m a))

/-- `Read16`, that is `MemRead(a, 2)` (R55); none where it raises `MemoryOutOfRange(a, 2)`. -/
def read16 (s : State) (a : Word) : Option Word := if inRange a 2 then some (wordAt s.mem a.toNat) else none

/-- `Read32`, that is `MemRead(a, 4)` (R55); none where it raises `MemoryOutOfRange(a, 4)`. -/
def read32 (s : State) (a : Word) : Option Word32 := if inRange a 4 then some (word32At s.mem a.toNat) else none

/-- The two bytes of an in-range 16-bit write, low byte first (R53, R56). -/
def writeWord (s : State) (a : Word) (v : Word) : State :=
  writeByte (writeByte s a.toNat (lowByte v)) (a.toNat + 1) (highByte v)

/-- What an out-of-range 16-bit write leaves at its first byte before it raises: the draw `PARTIAL_WRITE_BYTE`, the old
byte or the value's low byte (R56, D10; log entry 6). -/
def partialWrite (s : State) (a : Word) (v : Word) : State :=
  { writeByte s a.toNat (if Config.partialWriteStores s.draws then lowByte v else readByte s a.toNat) with
    draws := s.draws + 1 }

/-- `Write16`, that is `MemWrite(a, 2, v)` (R56). -/
def write16 (s : State) (a : Word) (v : Word) : Result :=
  if inRange a 2 then .next (writeWord s a v)
  else raiseFault (.memoryOutOfRange a 2) (partialWrite s a v)

end Sys2Proof.Machine
end

