-- ==== Sys2Proof/Machine/Operands.lean ====
section
/-! DEFINITION. The operand forms (10_state.md R28, 30_encoding.md R83, R84). A nibble index and an immediate are used as
they stand; a whole-byte index is checked first. -/

namespace Sys2Proof.Machine

/-- The register a whole-byte index names; none for 16 or more (R28). -/
def byteIndex (r : Byte) : Option RegIdx := if h : r.toNat < 16 then some ⟨r.toNat, h⟩ else none

/-- The first line of LDI, LDM, STM and TSTI: `if u(param0) >= 16: raise Fault(RegisterIndexOutOfRange(param0))`, before
anything is read or written (R28, R204; log entry 10). -/
def withByteIndex (r : Byte) (s : State) (handler : RegIdx → Result) : Result :=
  match byteIndex r with
  | some i => handler i
  | none => raiseFault (.registerIndexOutOfRange r) s

/-- The line `v = MemRead(addr, 2)` of a handler: the later lines run with the value, or the read raises (R55). -/
def withRead16 (a : Word) (s : State) (handler : Word → Result) : Result :=
  match read16 s a with
  | some v => handler v
  | none => raiseFault (.memoryOutOfRange a 2) s

end Sys2Proof.Machine
end

