-- ==== Sys2Proof/Machine/Flags.lean ====
section
/-! DEFINITION. The FLAGS register and its setters (10_state.md R30, R31), the ALU's results and its flag rules
(43_alu_and_flags.md R160 to R168, R177 to R179). -/

namespace Sys2Proof.Machine

/-! ### The FLAGS register -/

/-- The four defined flags. -/
inductive Flag where
  | c | z | o | n
  deriving DecidableEq, Repr

/-- The place of a flag in FLAGS: "bit 1 = Carry, bit 2 = Zero, bit 6 = Overflow, bit 7 = Negative" (R30). -/
def flagBit : Flag → Nat
  | .c => 1
  | .z => 2
  | .o => 6
  | .n => 7

/-- The bit of a flag as a mask. -/
def flagMask (f : Flag) : Byte := BitVec.twoPow 8 (flagBit f)

/-- The reserved bits 0, 3, 4 and 5 (R30). -/
def reservedFlagBits : Byte := 0x39

/-- One flag. -/
def getFlag (s : State) (f : Flag) : Bool := s.flags.getLsbD (flagBit f)

/-- `ReadFLAGS`: the reserved bits "always read ... as zero" (R30; log entry 24). -/
def readFlags (s : State) : Byte := s.flags &&& ~~~reservedFlagBits

/-- `SetC`, `SetZ`, `SetO`, `SetN`: "set or clear exactly one bit, leaving all others untouched" (R31). They are the only
writers of FLAGS. -/
def setFlag (s : State) (f : Flag) (b : Bool) : State :=
  { s with flags := if b then s.flags ||| flagMask f else s.flags &&& ~~~flagMask f }

/-! ### The ALU -/

/-- `trunc16(n)`: the pattern of n modulo 2^16 (R11, R161). -/
def trunc16 (n : Int) : Word := BitVec.ofInt 16 n

/-- `zf(res) = (u(res) == 0)` (R162). -/
def zf (res : Word) : Bool := decide (res.toNat = 0)

/-- `nf(res) = (res[15] == 1)` (R163). -/
def nf (res : Word) : Bool := res.getLsbD 15

/-- `OV(a, b, r)`, the one overflow test of the add and the subtract family, its comparisons strict (R164;
90_conflicts.md C3, C4). -/
def ov (a b r : Word) : Bool :=
  decide ((0 < a.toInt ∧ 0 < b.toInt ∧ r.toInt < 0) ∨ (a.toInt < 0 ∧ b.toInt < 0 ∧ 0 < r.toInt))

/-- `CA(a, b) = (u(a) + u(b) >= 0x10000)` (R165). -/
def ca (a b : Word) : Bool := decide (0x10000 ≤ a.toNat + b.toNat)

/-- `CS(a, b) = (u(a) < u(b))`: 1 means a borrow (R166). -/
def cs (a b : Word) : Bool := decide (a.toNat < b.toNat)

/-- What the add and subtract cores answer (R160). -/
structure AluOut where
  res  : Word
  zero : Bool
  neg  : Bool
  ovf  : Bool
  cry  : Bool
  deriving DecidableEq, Repr

/-- The add core (R167). -/
def addF (a b : Word) : AluOut :=
  let res := trunc16 ((a.toNat : Int) + b.toNat)
  ⟨res, zf res, nf res, ov a b res, ca a b⟩

/-- The subtract core (R168). -/
def subF (a b : Word) : AluOut :=
  let res := trunc16 ((a.toNat : Int) - b.toNat)
  ⟨res, zf res, nf res, ov a b res, cs a b⟩

/-- The exact signed product `p = s(a) * s(b)` (R177). -/
def product (a b : Word) : Int := a.toInt * b.toInt

/-- MUL2's result: the low 16 bits of the product (R177). -/
def mulRes (a b : Word) : Word := trunc16 (product a b)

/-- `MUL2_CARRY(a, b)`: the values R179 settles, (i), (ii) and (iii), and the open function elsewhere (D8; log
entry 5). -/
def mul2Carry (a b : Word) : Bool :=
  if product a b = 0 then false
  else if 0 ≤ a.toInt ∧ 0 ≤ b.toInt ∧ product a b ≤ 0x7FFF then false
  else if 0 ≤ a.toInt ∧ 0 ≤ b.toInt ∧ 0xFFFF < product a b then true
  else Config.mul2CarryUnsettled a b

/-- DIV2's result: the signed quotient, truncated toward zero, narrowed to 16 bits (R178; log entry 21). -/
def divRes (a b : Word) : Word := trunc16 (a.toInt.tdiv b.toInt)

/-- DIV2's carry: the remainder `s(a) - s(b) * q` is not zero (R178, R11). -/
def divCarry (a b : Word) : Bool := decide (a.toInt - b.toInt * a.toInt.tdiv b.toInt ≠ 0)

/-! ### The flags a family writes -/

/-- `SetZ(u(res) == 0); SetN(res[15] == 1)` (R170 to R172). -/
def setZN (s : State) (res : Word) : State := setFlag (setFlag s .z (zf res)) .n (nf res)

/-- `SetZ(zf); SetN(nf); SetO(of); SetC(cf)` (R173 to R176). -/
def setZNOC (s : State) (out : AluOut) : State :=
  setFlag (setFlag (setFlag (setFlag s .z out.zero) .n out.neg) .o out.ovf) .c out.cry

/-- `SetZ(u(res) == 0); SetN(res[15] == 1); SetC(carry)` (R177, R178). -/
def setZNC (s : State) (res : Word) (carry : Bool) : State := setFlag (setZN s res) .c carry

end Sys2Proof.Machine
end

