-- ==== Sys2Proof/Machine/AddSub.lean ====
section
/-! DEFINITION. Add and subtract: ADD, ADDI, SUB, CMPI (43_alu_and_flags.md R173 to R176). They write Z, N, O and C. -/

namespace Sys2Proof.Machine

/-- The shared lines of ADD, ADDI and SUB: write the result, then the four flags. -/
def addSubInto (x : RegIdx) (out : AluOut) (s : State) : Result := .next (setZNOC (writeGp s x out.res) out)

/-- ADD (R173): both operands are read before the write (R106). -/
def execAdd (x y : RegIdx) (s : State) : Result := addSubInto x (addF (readGp s x) (readGp s y)) s

/-- ADDI (R174). -/
def execAddi (x : RegIdx) (imm : Word) (s : State) : Result := addSubInto x (addF (readGp s x) imm) s

/-- SUB (R175): GP[x] is the minuend. -/
def execSub (x y : RegIdx) (s : State) : Result := addSubInto x (subF (readGp s x) (readGp s y)) s

/-- CMPI (R176): no register is written. -/
def execCmpi (x : RegIdx) (imm : Word) (s : State) : Result := .next (setZNOC s (subF (readGp s x) imm))

end Sys2Proof.Machine
end

