-- ==== Sys2Proof/Machine/Control.lean ====
section
/-! DEFINITION. No-operation and control transfer: NOP, JMP, J, CALL, RET (41_control_transfer.md). On entry `PC` is the
instruction's address + 4 (R130). -/

namespace Sys2Proof.Machine

/-- NOP (R120). -/
def execNop (s : State) : Result := .next s

/-- JMP (R121): any target is accepted. -/
def execJmp (target : Word) (s : State) : Result := .next (setPc s target)

/-- J (R123): the condition is the instruction's byte param0, not a flag. -/
def execJ (cond : Byte) (target : Word) (s : State) : Result :=
  if cond.toNat ≠ 0 then .next (setPc s target) else .next s

/-- CALL (R124): store the return address at `SP`, then advance `SP`, then jump. -/
def execCall (target : Word) (s : State) : Result :=
  andThen (write16 s (getSp s) (getPc s)) (fun t => .next (setPc (incrementSp t) target))

/-- RET (R127): step `SP` back, then read the target there. A read that raises leaves the decremented `SP` (R201). -/
def execRet (s : State) : Result :=
  let t := decrementSp s
  withRead16 (getSp t) t (fun v => .next (setPc t v))

end Sys2Proof.Machine
end

