-- ==== Sys2Proof/Machine/DataMove.lean ====
section
/-! DEFINITION. Data movement: LDI, LDM, STM, MOV (42_data_movement.md). -/

namespace Sys2Proof.Machine

/-- LDI (R140). -/
def execLdi (r : Byte) (imm : Word) (s : State) : Result :=
  withByteIndex r s (fun i => .next (writeGp s i imm))

/-- LDM (R141): the index is checked before the access (R210). -/
def execLdm (r : Byte) (addr : Word) (s : State) : Result :=
  withByteIndex r s (fun i => withRead16 addr s (fun v => .next (writeGp s i v)))

/-- STM (R142): the index is checked before the access (R210). -/
def execStm (r : Byte) (addr : Word) (s : State) : Result :=
  withByteIndex r s (fun i => write16 s addr (readGp s i))

/-- MOV (R143). -/
def execMov (x y : RegIdx) (s : State) : Result := .next (writeGp s x (readGp s y))

end Sys2Proof.Machine
end

