-- ==== Sys2Proof/Machine/Logic.lean ====
section
/-! DEFINITION. Logic: TSTI, XOR, OR (43_alu_and_flags.md R170 to R172). They write Z and N. -/

namespace Sys2Proof.Machine

/-- TSTI (R170): no register is written. -/
def execTsti (r : Byte) (imm : Word) (s : State) : Result :=
  withByteIndex r s (fun i => .next (setZN s (readGp s i &&& imm)))

/-- The shared lines of XOR and OR: write the result, then Z and N from it. -/
def logicInto (x : RegIdx) (res : Word) (s : State) : Result := .next (setZN (writeGp s x res) res)

/-- XOR (R171). -/
def execXor (x y : RegIdx) (s : State) : Result := logicInto x (readGp s x ^^^ readGp s y) s

/-- OR (R172). -/
def execOr (x y : RegIdx) (s : State) : Result := logicInto x (readGp s x ||| readGp s y) s

end Sys2Proof.Machine
end

