-- ==== Sys2Proof/Machine/MulDiv.lean ====
section
/-! DEFINITION. Multiply and divide: MUL2, DIV2 (43_alu_and_flags.md R177 to R179). They write Z, N and C. -/

namespace Sys2Proof.Machine

/-- The shared lines of MUL2 and DIV2: write the result, then Z, N and C. -/
def mulDivInto (z : RegIdx) (res : Word) (carry : Bool) (s : State) : Result :=
  .next (setZNC (writeGp s z res) res carry)

/-- MUL2 (R177): the factors are read before GP[z] is written (R106). -/
def execMul2 (x y z : RegIdx) (s : State) : Result :=
  let a := readGp s x
  let b := readGp s y
  mulDivInto z (mulRes a b) (mul2Carry a b) s

/-- DIV2 (R178): a zero divisor raises before anything is written (R205; log entry 11). -/
def execDiv2 (x y z : RegIdx) (s : State) : Result :=
  let a := readGp s x
  let b := readGp s y
  if b.toNat = 0 then raiseFault .divideByZero s
  else mulDivInto z (divRes a b) (divCarry a b) s

end Sys2Proof.Machine
end

