-- ==== Sys2Proof/Machine/Dispatch.lean ====
section
/-! DEFINITION. The opcode dispatch table's handlers: one arm per instruction (30_encoding.md R89). -/

namespace Sys2Proof.Machine

/-- Runs the handler of a decoded instruction; `PC` has already been advanced (R100). -/
def exec (i : Instr) (s : State) : Host.Outcome State Fault Refusal :=
  match i with
  | .nop => Sys2Proof.Machine.execNop s
  | .jmp target => Sys2Proof.Machine.execJmp target s
  | .j cond target => Sys2Proof.Machine.execJ cond target s
  | .call target => Sys2Proof.Machine.execCall target s
  | .ret => Sys2Proof.Machine.execRet s
  | .ldi r imm => Sys2Proof.Machine.execLdi r imm s
  | .ldm r addr => Sys2Proof.Machine.execLdm r addr s
  | .mov x y => Sys2Proof.Machine.execMov x y s
  | .stm r addr => Sys2Proof.Machine.execStm r addr s
  | .addi x imm => Sys2Proof.Machine.execAddi x imm s
  | .add x y => Sys2Proof.Machine.execAdd x y s
  | .sub x y => Sys2Proof.Machine.execSub x y s
  | .cmpi x imm => Sys2Proof.Machine.execCmpi x imm s
  | .tsti r imm => Sys2Proof.Machine.execTsti r imm s
  | .or x y => Sys2Proof.Machine.execOr x y s
  | .xor x y => Sys2Proof.Machine.execXor x y s
  | .mul2 x y z => Sys2Proof.Machine.execMul2 x y z s
  | .div2 x y z => Sys2Proof.Machine.execDiv2 x y z s

end Sys2Proof.Machine
end

