-- ==== Sys2Proof/Machine/Cycle.lean ====
section
/-! DEFINITION. One `ExecuteCycle`: fetch, advance `PC`, decode, dispatch, execute, count (40_fetch_cycle.md R100). -/

namespace Sys2Proof.Machine

/-- The last line of a step, `CYCLES <- n + 1`, run only if the handler did not raise (R100, R35). -/
def countCycle (n : Nat) (r : Result) : Result := andThen r (fun t => .next { t with cycles := n + 1 })

/-- Decode, dispatch and execute a fetched word on a machine whose `PC` has been advanced (R100, R105). -/
def dispatchWord (m : OpcodeMap) (w : Word32) (s : State) : Result :=
  match decodeWith m w with
  | .ok i => exec i s
  | .error _ => raiseFault (.unimplementedOpcode (splitWord w).opcode) s

/-- `ExecuteCycle()` of a core with the opcode map `m` (R100). The fetch reads memory as it stands (R103) and raises
before `PC` is advanced (R102); a machine whose run is over has no step (R109; log entry 9). -/
def executeCycleWith (m : OpcodeMap) (s : State) : Result :=
  match s.run with
  | .faulted reason => .fault (.runIsOver reason s)
  | .running =>
    match read32 s (getPc s) with
    | none => raiseFault (.memoryOutOfRange (getPc s) 4) s
    | some w => countCycle s.cycles (dispatchWord m w (incrementPc s))

/-- `s` with the bytes of a table word where the next step fetches. Only where no step could fetch there does it change
more: a `PC` above 0xFFFC is set to 0, and a run that is over is set running (log entry 19). -/
def placeFetchWord (s : State) (nbits w : Nat) : State :=
  let at0 := if inRange s.pc 4 then s.pc else 0
  { s with pc := at0, run := .running, mem := Memory.writeBytes s.mem at0.toNat (tableBytes nbits w) }

end Sys2Proof.Machine
end

