-- ==== Sys2Proof/Machine/Step.lean ====
section
/-! DEFINITION. The step of the machine with the default opcode bytes, and the placing of an instruction where it fetches. -/

namespace Sys2Proof.Machine

/-- One `ExecuteCycle()` (40_fetch_cycle.md R100) with the default of `OPCODE_MAP` (R86). -/
def step (s : State) : Host.Outcome State Fault Refusal := executeCycleWith defaultOpcodeMap s

/-- `s` with the instruction of a table word stored where `step` fetches its next instruction. -/
def State.withFetchWord (s : State) (nbits w : Nat) : State := placeFetchWord s nbits w

end Sys2Proof.Machine
end

