-- ==== Sys2Proof/Machine/Graphics.lean ====
section
/-! DEFINITION. The bus's graphics command call and the co-processor's acceptance of a command (20_memory.md R63 to R65).
No instruction reaches it. -/

namespace Sys2Proof.Machine

/-- `AcceptCommand(command, p)` (R64): p[0] is not read. It raises as a step does and does not look at `RUN`, which is
DEDUCED, log entry 25. -/
def acceptCommand (command : GpuCommand) (p : Vector Byte 3) (s : State) : Result :=
  match command with
  | .nop => .next s
  | .spr => .next { s with gpu := { s.gpu with spriteW := p[1], spriteH := p[2] } }
  | .other => raiseFault (.unimplementedCommand .other) s

/-- `SendCommandToGPU(command, parameters)`: forwards the command within the same call (R63). -/
def sendCommandToGpu (command : GpuCommand) (p : Vector Byte 3) (s : State) : Result := acceptCommand command p s

end Sys2Proof.Machine
end

