-- ==== Sys2Proof/Machine/HostPort.lean ====
section
/-! DEFINITION. What the driver and the loader may do between steps, beside asking for a step (60_exceptions.md R218): fill
memory, set `PC`, read any state. A machine whose run is over may only be read (R212). -/

namespace Sys2Proof.Machine

/-- Why a move of the host gives no new state; the machine stays as it is. -/
inductive MoveReject where
  /-- The call returns its own error to the host (R208). Safe: the spec's own error. -/
  | callError (e : CallError)
  /-- The machine's run is over, and the host "may only read its state or construct a new machine" (R212). Raised by
  `whileRunning` alone. Safe: the spec gives no such move. DESIGN CHOICE of form, log entry 29. -/
  | runIsOver (reason : FaultReason)
  deriving DecidableEq, Repr

/-- A move of the host that changes the machine: there is one only while `RUN` is Running (R212, R218; log entry 29). -/
def whileRunning (s : State) (answer : Except MoveReject State) : Except MoveReject State :=
  match s.run with
  | .running => answer
  | .faulted reason => .error (.runIsOver reason)

/-- `FillMemory(bytes, startAddress)` (R62): past the address space it returns `OutOfRange` and changes nothing (log
entry 15). -/
def fillMemory (bytes : List Byte) (start : Word) (s : State) : Except MoveReject State :=
  whileRunning s
    (if start.toNat + bytes.length > Config.memorySize then .error (.callError .outOfRange)
    else .ok { s with mem := Memory.writeBytes s.mem start.toNat bytes })

/-- The start-address hand-off: the driver's `SetPC` (R233; log entry 19). -/
def driverSetPc (start : Word) (s : State) : Except MoveReject State := whileRunning s (.ok (setPc s start))

/-- What a diagnostic read shows of the machine: what R218 lists. The spec mandates no shape, and its decision D20 lets the
host read any state; that this view leaves out the graphics state and `RUN` is a DESIGN CHOICE, log entry 30. -/
structure Diagnostics where
  cycles : Nat
  pc     : Word
  sp     : Word
  gp     : Vector Word 16
  flags  : Byte
  mem    : Memory
  deriving DecidableEq, Repr

/-- The driver's read-only access to the cycle count, the registers and memory (R218; log entry 30). -/
def diagnostics (s : State) : Diagnostics := ⟨s.cycles, getPc s, getSp s, s.gp, readFlags s, s.mem⟩

end Sys2Proof.Machine
end

