-- ==== Sys2Proof/Safety.lean ====
section
/-! DEFINITION. The terms claims use: the invariant of the machine's state, the states a machine can reach, the normal end
of a run, when an instruction completes, and what an instruction or a fault leaves unchanged. -/

namespace Sys2Proof.Machine

/-- The machine's invariant: memory keeps its canonical form, and the reserved FLAGS bits are zero (10_state.md R30). Its
other laws (16 registers, 16-bit PC and SP) hold by the types. -/
structure State.Inv (s : State) : Prop where
  mem   : Memory.wf s.mem
  flags : s.flags &&& reservedFlagBits = 0

/-- The states a core with opcode map `m`, constructed with the draws `d`, can reach: by construction, by a step that goes
on, by a step that ends the run, and by the host's moves between steps, of which a faulted machine has none
(70_reset_and_hazards.md R230, R233; 60_exceptions.md R212, R218). -/
inductive Reachable (m : OpcodeMap) (d : ResetDraws) : State → Prop where
  | construct : Reachable m d (State.resetWith d)
  | step {s t : State} : Reachable m d s → executeCycleWith m s = .next t → Reachable m d t
  | fault {s t : State} {reason : FaultReason} :
      Reachable m d s → executeCycleWith m s = .fault (.raised reason t) → Reachable m d t
  | fill {s t : State} {bytes : List Byte} {start : Word} :
      Reachable m d s → fillMemory bytes start s = .ok t → Reachable m d t
  | handOver {s t : State} {start : Word} : Reachable m d s → driverSetPc start s = .ok t → Reachable m d t

/-- The normal end of a run: the instruction at `PC` is a JMP to its own address (70_reset_and_hazards.md R239). -/
def AtNormalEnd (s : State) : Prop :=
  s.run = .running ∧ ∃ w, read32 s (getPc s) = some w ∧ decode w = .ok (.jmp (getPc s))

/-- `k` steps of a core with opcode map `m`, stopping at the first fault. -/
def runStepsWith (m : OpcodeMap) : Nat → State → Result
  | 0, s => .next s
  | k + 1, s => andThen (executeCycleWith m s) (runStepsWith m k)

/-- `k` steps with the default opcode bytes: `Host.Core.run` on this machine (`runSteps_eq_run` in Laws/Step.lean). -/
def runSteps (k : Nat) (s : State) : Result := runStepsWith defaultOpcodeMap k s

/-- The first `k` steps from `s` raise nothing. -/
def RunsSafely (k : Nat) (s : State) : Prop := ∃ t : State, runSteps k s = .next t

/-- The conditions on operands and state under which the handler of an instruction raises nothing (60_exceptions.md R203
to R205, R209). -/
def CanComplete (i : Instr) (s : State) : Prop :=
  match i with
  | .call _ => s.sp ≠ 0xFFFF
  | .ret => s.sp ≠ 0x0001
  | .ldi r _ => r.toNat < 16
  | .ldm r addr => r.toNat < 16 ∧ addr ≠ 0xFFFF
  | .stm r addr => r.toNat < 16 ∧ addr ≠ 0xFFFF
  | .tsti r _ => r.toNat < 16
  | .div2 _ y _ => readGp s y ≠ 0
  | .nop | .jmp _ | .j _ _ | .mov _ _ | .addi _ _ | .add _ _ | .sub _ _ | .cmpi _ _ | .or _ _ | .xor _ _
  | .mul2 _ _ _ => True

/-- The flags an instruction that completes writes: the table of 10_state.md R32. -/
def flagsWritten : Mnemonic → List Flag
  | .tsti | .xor | .or => [.z, .n]
  | .add | .addi | .sub | .cmpi => [.c, .z, .o, .n]
  | .mul2 | .div2 => [.c, .z, .n]
  | .nop | .jmp | .j | .call | .ret | .ldi | .ldm | .stm | .mov => []

/-! ### Frames -/

/-- Every general register but those listed is unchanged. -/
def GpSameExcept (regs : List RegIdx) (s t : State) : Prop := ∀ i, i ∉ regs → readGp t i = readGp s i

/-- Every bit of FLAGS but those of the listed flags is unchanged, the reserved bits among them. -/
def FlagsSameExcept (fs : List Flag) (s t : State) : Prop :=
  ∀ b, (∀ f ∈ fs, flagBit f ≠ b) → t.flags.getLsbD b = s.flags.getLsbD b

/-- Every byte of memory is unchanged. -/
def MemSame (s t : State) : Prop := ∀ a, readByte t a = readByte s a

/-- Every byte of memory outside the two bytes at `at0` is unchanged. -/
def MemSameOutsideWord (at0 : Word) (s t : State) : Prop :=
  ∀ a, a ≠ at0.toNat → a ≠ at0.toNat + 1 → readByte t a = readByte s a

/-- What no handler changes: the cycle counter, the graphics state and the run state. -/
structure RestSame (s t : State) : Prop where
  cycles : t.cycles = s.cycles
  gpu    : t.gpu = s.gpu
  run    : t.run = s.run

/-- The frame of an instruction that stores nothing and moves neither `PC` nor `SP`: all is unchanged but the listed
registers and flags. -/
structure FrameExcept (regs : List RegIdx) (fs : List Flag) (s t : State) : Prop where
  gp    : GpSameExcept regs s t
  flags : FlagsSameExcept fs s t
  mem   : MemSame s t
  pc    : t.pc = s.pc
  sp    : t.sp = s.sp
  rest  : RestSame s t

/-- The frame of an instruction that moves `PC` or `SP` or stores: registers and FLAGS, and what no handler changes. -/
structure RegistersSame (s t : State) : Prop where
  gp    : t.gp = s.gp
  flags : t.flags = s.flags
  rest  : RestSame s t

/-- What a fault leaves beside `RUN` and `CYCLES`: the state `s` of the raising line, whole (60_exceptions.md R201, R35). -/
structure FaultMarks (reason : FaultReason) (s t : State) : Prop where
  pc     : t.pc = s.pc
  sp     : t.sp = s.sp
  gp     : t.gp = s.gp
  flags  : t.flags = s.flags
  gpu    : t.gpu = s.gpu
  run    : t.run = .faulted reason
  cycles : t.cycles = s.cycles ∨ t.cycles = s.cycles + 1

/-- `t` is the state left by a fault raised in the state `s`, memory unchanged. -/
def LeftBy (reason : FaultReason) (s t : State) : Prop := FaultMarks reason s t ∧ MemSame s t

/-- `t` is the state left by an out-of-range 16-bit write of `v` in the state `s`: at 0xFFFF the old byte or the low byte
of `v`, every other byte unchanged (20_memory.md R56). -/
def LeftByPartialWrite (v : Word) (s t : State) : Prop :=
  FaultMarks (.memoryOutOfRange 0xFFFF 2) s t ∧
    (readByte t 0xFFFF = readByte s 0xFFFF ∨ readByte t 0xFFFF = v.extractLsb' 0 8) ∧
    ∀ a, a ≠ 0xFFFF → readByte t a = readByte s a

end Sys2Proof.Machine
end

