-- ==== Sys2Proof/Certificates/Slice0/Obligations.lean ====
section
/-! DEFINITION. The statements about the machine, for the provers. Each docstring says which rule of spec/ it formalises;
`s(v)` is `v.toInt`, `u(v)` is `v.toNat`. -/

open Sys2Proof Sys2Proof.Machine

/-! ### Reset and invariants -/

/-- R230: the state right after construction, for every value of the draws the spec leaves open; `State.reset` is one of
these states. -/
def Obligations.ResetStateOfEveryDraw : Prop :=
  (∃ d : ResetDraws, State.reset = State.resetWith d) ∧
  ∀ d : ResetDraws,
    (State.resetWith d).pc = 0x0000 ∧ (State.resetWith d).sp = 0xFDF0 ∧
    (∀ i, readGp (State.resetWith d) i = d.gp.get i) ∧
    (State.resetWith d).flags &&& 0x39 = 0 ∧
    getFlag (State.resetWith d) .c = d.c ∧ getFlag (State.resetWith d) .z = d.z ∧
    getFlag (State.resetWith d) .o = d.o ∧ getFlag (State.resetWith d) .n = d.n ∧
    (∀ a, readByte (State.resetWith d) a = 0x00) ∧
    (State.resetWith d).cycles = 0 ∧ (State.resetWith d).gpu = d.gpu ∧ (State.resetWith d).run = .running

/-- The invariant holds after construction, for every value of the draws (canonical memory is the model's form, log
entry 23). -/
def Obligations.ResetStatesMeetTheInvariant : Prop := ∀ d : ResetDraws, (State.resetWith d).Inv

/-- Every step keeps the invariant, whatever the opcode map: the step that goes on and the step that ends the run; and so do
the host's moves, a memory fill and a PC hand-over (reserved FLAGS bits zero, R30, R31; canonical memory, the model's form, log
entry 23). -/
def Obligations.EveryStepKeepsTheInvariant : Prop :=
  ∀ s : State, s.Inv →
    (∀ t, step s = .next t → t.Inv) ∧
    (∀ m : OpcodeMap,
      (∀ t, executeCycleWith m s = .next t → t.Inv) ∧
      ∀ reason t, executeCycleWith m s = .fault (.raised reason t) → t.Inv) ∧
    (∀ bytes start t, fillMemory bytes start s = .ok t → t.Inv) ∧
    ∀ start t, driverSetPc start s = .ok t → t.Inv

/-- Every state that construction, steps, memory fills and PC hand-overs can reach meets the invariant and has the graphics
state of its construction (R30, R62, R65, R212, R218; canonical memory is the model's form, log entry 23). -/
def Obligations.ReachableStatesMeetTheInvariant : Prop :=
  ∀ (m : OpcodeMap) (d : ResetDraws) (s : State), Reachable m d s → s.Inv ∧ s.gpu = d.gpu

/-! ### Encoding -/

/-- Decoding the encoding of any instruction gives it back, as a word and as bytes, whatever injective opcode map the core
has (R80, R81, R83, R85, R86). -/
def Obligations.DecodeOfEncodeIsTheInstruction : Prop :=
  ∀ m : OpcodeMap, m.Valid → ∀ i : Instr,
    decodeWith m (encodeWith m i) = .ok i ∧ decodeBytesWith m (encodeBytesWith m i) = .ok i

/-- The opcode byte selects the operation, and its operands are the bits of the word that the format's pattern names, whatever
injective opcode map the core has (R83, R85, R107; that no other bit is checked is the spec's own decision D4, log
entry 13). -/
def Obligations.DecodingReadsTheTabledFields : Prop :=
  ∀ m : OpcodeMap, m.Valid → ∀ (w : Word32) (k : Mnemonic), w.extractLsb' 0 8 = m k →
    decodeWith m w = .ok (match k with
      | .nop => .nop
      | .jmp => .jmp (w.extractLsb' 16 16)
      | .j => .j (w.extractLsb' 8 8) (w.extractLsb' 16 16)
      | .call => .call (w.extractLsb' 16 16)
      | .ret => .ret
      | .ldi => .ldi (w.extractLsb' 8 8) (w.extractLsb' 16 16)
      | .ldm => .ldm (w.extractLsb' 8 8) (w.extractLsb' 16 16)
      | .mov => .mov (w.extractLsb' 8 4).toFin (w.extractLsb' 12 4).toFin
      | .stm => .stm (w.extractLsb' 8 8) (w.extractLsb' 16 16)
      | .addi => .addi (w.extractLsb' 8 4).toFin (w.extractLsb' 16 16)
      | .add => .add (w.extractLsb' 8 4).toFin (w.extractLsb' 12 4).toFin
      | .sub => .sub (w.extractLsb' 8 4).toFin (w.extractLsb' 12 4).toFin
      | .cmpi => .cmpi (w.extractLsb' 8 4).toFin (w.extractLsb' 16 16)
      | .tsti => .tsti (w.extractLsb' 8 8) (w.extractLsb' 16 16)
      | .or => .or (w.extractLsb' 8 4).toFin (w.extractLsb' 12 4).toFin
      | .xor => .xor (w.extractLsb' 8 4).toFin (w.extractLsb' 12 4).toFin
      | .mul2 => .mul2 (w.extractLsb' 8 4).toFin (w.extractLsb' 12 4).toFin (w.extractLsb' 16 4).toFin
      | .div2 => .div2 (w.extractLsb' 8 4).toFin (w.extractLsb' 12 4).toFin (w.extractLsb' 16 4).toFin)

/-- A word that decodes to an instruction re-encodes to its own bits in every field the format reads and 0 elsewhere
(R85, R90). -/
def Obligations.DecodedWordsReencodeToTheirReadBits : Prop :=
  ∀ m : OpcodeMap, m.Valid → ∀ (w : Word32) (i : Instr),
    decodeWith m w = .ok i → encodeWith m i = w &&& readMask i.mnemonic

/-- Bits a format does not read do not matter: two words that agree on the read bits decode alike (R87; the spec's own
decision D4, log entry 13). -/
def Obligations.UnreadBitsDoNotMatter : Prop :=
  ∀ (m : OpcodeMap) (w v : Word32) (i : Instr),
    decodeWith m w = .ok i → w &&& readMask i.mnemonic = v &&& readMask i.mnemonic → decodeWith m v = .ok i

/-- Words written out from R85's patterns and R86's default opcode bytes (PRESUMED, log entry 1) decode to their
instructions. -/
def Obligations.SampleWordsDecode : Prop :=
  decode 0x12340120 = .ok (.ldi 0x01 0x1234) ∧ decode 0x02000112 = .ok (.j 0x01 0x0200) ∧
  decode 0x00002141 = .ok (.add 1 2) ∧ decode 0x000543A2 = .ok (.div2 3 4 5) ∧
  decode 0xFFFF1340 = .ok (.addi 3 0xFFFF) ∧ decode 0x00000001 = .error (.unimplementedOpcode 0x01)

/-- Constructing an instruction unit succeeds exactly with 3 parameter bytes (R82, R207). -/
def Obligations.ConstructionNeedsThreeParameters : Prop :=
  ∀ (opcode : Byte) (ps : List Byte),
    (ps.length = 3 → ∃ r, RawInstr.construct opcode ps = .ok r ∧ r.opcode = opcode ∧
      [r.param0, r.param1, r.param2] = ps) ∧
    (ps.length ≠ 3 → RawInstr.construct opcode ps = .error .invalidArgument)

/-! ### The step -/

/-- When the four bytes at `PC` decode to an instruction, the step is the instruction's handler run with `PC` advanced by
4, and then `CYCLES` counts the step (R100, R101, R104). -/
def Obligations.StepRunsTheDecodedInstruction : Prop :=
  ∀ (m : OpcodeMap) (s : State) (i : Instr), s.run = .running → s.pc.toNat + 4 ≤ 65536 →
    decodeBytesWith m [readByte s s.pc.toNat, readByte s (s.pc.toNat + 1), readByte s (s.pc.toNat + 2),
      readByte s (s.pc.toNat + 3)] = .ok i →
    executeCycleWith m s =
      match exec i { s with pc := s.pc + 4 } with
      | .next t => .next { t with cycles := s.cycles + 1 }
      | .fault f => .fault f
      | .refused f => .refused f

/-- An opcode byte outside the map is fatal: the step raises `UnimplementedOpcode` with `PC` advanced by 4 and nothing else
changed (R88, R105, R202). -/
def Obligations.UnimplementedOpcodeIsFatal : Prop :=
  ∀ (m : OpcodeMap) (s : State), s.run = .running → s.pc.toNat + 4 ≤ 65536 →
    (∀ k : Mnemonic, m k ≠ readByte s s.pc.toNat) →
    ∃ t, executeCycleWith m s = .fault (.raised (.unimplementedOpcode (readByte s s.pc.toNat)) t) ∧
      LeftBy (.unimplementedOpcode (readByte s s.pc.toNat)) { s with pc := s.pc + 4 } t

/-- A fetch past the address space is fatal, with `PC` left at the fetch address; a fetch at 0xFFFC succeeds and wraps `PC`
to 0x0000 (R102). -/
def Obligations.FetchPastMemoryIsFatal : Prop :=
  ∀ (m : OpcodeMap) (s : State), s.run = .running →
    (s.pc = 0xFFFD ∨ s.pc = 0xFFFE ∨ s.pc = 0xFFFF →
      ∃ t, executeCycleWith m s = .fault (.raised (.memoryOutOfRange s.pc 4) t) ∧
        LeftBy (.memoryOutOfRange s.pc 4) s t) ∧
    ∀ i : Instr, s.pc = 0xFFFC →
      decodeBytesWith m [readByte s 0xFFFC, readByte s 0xFFFD, readByte s 0xFFFE, readByte s 0xFFFF] = .ok i →
      executeCycleWith m s =
        match exec i { s with pc := 0x0000 } with
        | .next t => .next { t with cycles := s.cycles + 1 }
        | .fault f => .fault f
        | .refused f => .refused f

/-- A machine whose run is over never runs again (R109, R212; the spec's own decision D15): it makes no step, its state
stays as it is, and no fill and no PC hand-over changes it. The outcomes' form is the model's choice, log entries 9 and 29. -/
def Obligations.FaultedMachineMakesNoStep : Prop :=
  ∀ (s : State) (reason : FaultReason), s.run = .faulted reason →
    (∀ m : OpcodeMap, executeCycleWith m s = .fault (.runIsOver reason s)) ∧
    (∀ bytes start, fillMemory bytes start s = .error (.runIsOver reason)) ∧
    ∀ start, driverSetPc start s = .error (.runIsOver reason)

/-- Each instruction takes exactly one `ExecuteCycle`, and `CYCLES` counts executed steps (R238, R35), whatever the opcode
map: a step that goes on has run one decoded instruction to its end, with `PC` advanced, and added 1 to `CYCLES`; `k` steps add
`k`. That the counter is unbounded is the spec's own choice, log entry 18. -/
def Obligations.CyclesCountExecutedSteps : Prop :=
  (∀ (m : OpcodeMap) (s t : State), executeCycleWith m s = .next t →
    ∃ (i : Instr) (u : State),
      decodeBytesWith m [readByte s s.pc.toNat, readByte s (s.pc.toNat + 1), readByte s (s.pc.toNat + 2),
        readByte s (s.pc.toNat + 3)] = .ok i ∧
      exec i { s with pc := s.pc + 4 } = .next u ∧ t = { u with cycles := s.cycles + 1 }) ∧
  ∀ (m : OpcodeMap) (k : Nat) (s t : State), runStepsWith m k s = .next t → t.cycles = s.cycles + k

/-- Every fault of a step sets `RUN` to Faulted with its reason and leaves `CYCLES` at n or n + 1; a step that goes on
starts and ends Running (R36, R201, R35). -/
def Obligations.FaultsAndOnlyFaultsEndTheRun : Prop :=
  ∀ (m : OpcodeMap) (s : State),
    (∀ t, executeCycleWith m s = .next t → s.run = .running ∧ t.run = .running) ∧
    ∀ reason t, executeCycleWith m s = .fault (.raised reason t) →
      s.run = .running ∧ t.run = .faulted reason ∧ (t.cycles = s.cycles ∨ t.cycles = s.cycles + 1)

/-- No step changes the graphics state, and none raises `UnimplementedCommand`: no instruction reaches the co-processor
(R65). -/
def Obligations.NoStepReachesTheGraphicsProcessor : Prop :=
  ∀ (m : OpcodeMap) (s : State),
    (∀ t, executeCycleWith m s = .next t → t.gpu = s.gpu) ∧
    ∀ reason t, executeCycleWith m s = .fault (.raised reason t) →
      t.gpu = s.gpu ∧ ∀ command, reason ≠ .unimplementedCommand command

/-- A step from `s` raises nothing exactly when the run is on, the fetch is in range, the fetched word decodes, and the decoded
instruction's own conditions hold in the state its handler finds (R100, R203 to R205, R210; index and divisor faults are the
spec's decisions D3 and D9, log entries 10 and 11). -/
def Obligations.StepIsSafeExactlyWhen : Prop :=
  ∀ s : State, RunsSafely 1 s ↔
    s.run = .running ∧ s.pc.toNat ≤ 0xFFFC ∧
      ∃ i, decodeBytesWith defaultOpcodeMap [readByte s s.pc.toNat, readByte s (s.pc.toNat + 1),
        readByte s (s.pc.toNat + 2), readByte s (s.pc.toNat + 3)] = .ok i ∧
        CanComplete i { s with pc := s.pc + 4 }

/-- At a normal end, a JMP to its own address, every later step changes `CYCLES` alone (R239; the spec's own decision D22;
the opcode bytes are the presumed default, log entry 1). -/
def Obligations.NormalEndRepeatsForever : Prop :=
  ∀ (k : Nat) (s : State), AtNormalEnd s →
    runSteps k s = .next { s with cycles := s.cycles + k }

/-- Zero-filled memory runs as NOPs without end: `PC` advances by 4, wraps, and nothing faults (R120's corner case; with the
presumed default opcode bytes, log entry 1). -/
def Obligations.ZeroMemoryRunsAsNops : Prop :=
  ∀ (k : Nat) (s : State), s.run = .running → (∀ a, readByte s a = 0x00) → s.pc.toNat % 4 = 0 →
    runSteps k s = .next { s with pc := s.pc + BitVec.ofNat 16 (4 * k), cycles := s.cycles + k }

/-- `IncrementPC`, `IncrementSP` and `DecrementSP` wrap modulo 2^16 and change nothing else (R24, R26). -/
def Obligations.PcAndSpStepsWrap : Prop :=
  ∀ s : State,
    incrementPc s = { s with pc := s.pc + 4 } ∧ incrementSp s = { s with sp := s.sp + 2 } ∧
    decrementSp s = { s with sp := s.sp - 2 }

/-! ### Which instructions complete, and which faults they raise -/

/-- An instruction completes exactly when its index byte names a register, its 16-bit access is in range and its divisor is
not zero (R203 to R205, R210; the index and divisor faults are the spec's decisions D3 and D9, log entries 10 and 11). -/
def Obligations.InstructionsCompleteExactlyWhen : Prop :=
  ∀ (i : Instr) (s : State), (∃ t, exec i s = .next t) ↔ CanComplete i s

/-- Which instruction raises which fault (R209); no handler refuses (D3 and D9 as above, log entries 10 and 11). -/
def Obligations.FaultsComeFromTheirInstructions : Prop :=
  ∀ (i : Instr) (s : State),
    (∀ x, exec i s ≠ .refused x) ∧ (∀ reason t, exec i s ≠ .fault (.runIsOver reason t)) ∧
    ∀ reason t, exec i s = .fault (.raised reason t) →
      match reason with
      | .memoryOutOfRange a n =>
          a = 0xFFFF ∧ n = 2 ∧ (i.mnemonic = .ldm ∨ i.mnemonic = .stm ∨ i.mnemonic = .call ∨ i.mnemonic = .ret)
      | .registerIndexOutOfRange r =>
          16 ≤ r.toNat ∧ i.wellFormed = false ∧
            (i.mnemonic = .ldi ∨ i.mnemonic = .ldm ∨ i.mnemonic = .stm ∨ i.mnemonic = .tsti)
      | .divideByZero => i.mnemonic = .div2
      | .unimplementedOpcode _ => False
      | .unimplementedCommand _ => False

/-! ### Frames over all instructions -/

/-- Only CALL and RET write `SP` (R26). -/
def Obligations.OnlyCallAndRetWriteSp : Prop :=
  ∀ (i : Instr) (s t : State), exec i s = .next t → i.mnemonic ≠ .call → i.mnemonic ≠ .ret → t.sp = s.sp

/-- Only JMP, J, CALL and RET write `PC` after the fetch's advance; `CYCLES`, `RUN` and the graphics state are no handler's
(R23, R38). -/
def Obligations.OnlyControlTransferWritesPc : Prop :=
  ∀ (i : Instr) (s t : State), exec i s = .next t →
    RestSame s t ∧
    (i.mnemonic ≠ .jmp → i.mnemonic ≠ .j → i.mnemonic ≠ .call → i.mnemonic ≠ .ret → t.pc = s.pc)

/-- R32's table: which flags each instruction may write; every other bit of FLAGS, the reserved ones among them, stays. -/
def Obligations.FlagsAreWrittenAsTabled : Prop :=
  ∀ (i : Instr) (s t : State), exec i s = .next t →
    match i.mnemonic with
    | .tsti | .xor | .or => FlagsSameExcept [.z, .n] s t
    | .add | .addi | .sub | .cmpi => FlagsSameExcept [.c, .z, .o, .n] s t
    | .mul2 | .div2 => FlagsSameExcept [.c, .z, .n] s t
    | .nop | .jmp | .j | .call | .ret | .ldi | .ldm | .stm | .mov => t.flags = s.flags

/-- R29's table, its column of writes: which register each instruction may write. -/
def Obligations.RegistersAreWrittenAsTabled : Prop :=
  ∀ (i : Instr) (s t : State), exec i s = .next t →
    match i with
    | .ldi r _ | .ldm r _ => ∀ k : RegIdx, k.val ≠ r.toNat → readGp t k = readGp s k
    | .mov x _ | .xor x _ | .or x _ | .add x _ | .sub x _ | .addi x _ => GpSameExcept [x] s t
    | .mul2 _ _ z | .div2 _ _ z => GpSameExcept [z] s t
    | .stm _ _ | .tsti _ _ | .cmpi _ _ | .nop | .jmp _ | .j _ _ | .call _ | .ret => t.gp = s.gp

/-- Only STM and CALL store: STM the two bytes at its immediate address, CALL the two bytes at `SP`; every other byte, and
for every other instruction every byte, reads as before (R51, R59). -/
def Obligations.MemoryIsWrittenByStmAndCallOnly : Prop :=
  ∀ (i : Instr) (s t : State), exec i s = .next t →
    match i with
    | .stm _ addr => MemSameOutsideWord addr s t
    | .call _ => MemSameOutsideWord s.sp s t
    | .nop | .jmp _ | .j _ _ | .ret | .ldi _ _ | .ldm _ _ | .mov _ _ | .addi _ _ | .add _ _ | .sub _ _ | .cmpi _ _
    | .tsti _ _ | .or _ _ | .xor _ _ | .mul2 _ _ _ | .div2 _ _ _ => MemSame s t

/-- No instruction reads FLAGS: with any other FLAGS byte `f` an instruction goes on or faults alike, everything but FLAGS
comes out the same, the flags it writes come out the same too, and every other bit of FLAGS is `f`'s (R32, R123). -/
def Obligations.NoInstructionReadsFlags : Prop :=
  ∀ (i : Instr) (s : State) (f : Byte),
    (∀ t, exec i s = .next t → ∃ g : Byte, exec i { s with flags := f } = .next { t with flags := g } ∧
      (∀ w ∈ flagsWritten i.mnemonic, g.getLsbD (flagBit w) = t.flags.getLsbD (flagBit w)) ∧
      ∀ b, (∀ w ∈ flagsWritten i.mnemonic, flagBit w ≠ b) → g.getLsbD b = f.getLsbD b) ∧
    ∀ reason t, exec i s = .fault (.raised reason t) →
      exec i { s with flags := f } = .fault (.raised reason { t with flags := f })

/-! ### No-operation and control transfer -/

/-- NOP (R120): no effect. -/
def Obligations.NopHasNoEffect : Prop := ∀ s : State, exec .nop s = .next s

/-- JMP (R121): `PC <- imm16`, any target, nothing else. -/
def Obligations.JmpSetsPc : Prop := ∀ (target : Word) (s : State), exec (.jmp target) s = .next { s with pc := target }

/-- J (R123): jumps exactly when its byte param0 is not zero. -/
def Obligations.JTestsItsOwnByte : Prop :=
  ∀ (c : Byte) (target : Word) (s : State),
    (c ≠ 0x00 → exec (.j c target) s = .next { s with pc := target }) ∧
    (c = 0x00 → exec (.j c target) s = .next s)

/-- CALL (R124): pushes the return address low byte first at `SP`, advances `SP` by 2 and jumps; with `SP` = 0xFFFF it
raises `MemoryOutOfRange(0xFFFF, 2)`, keeping `SP` and `PC`, with the partial write of R56 (the spec's decision D10, log
entry 6). -/
def Obligations.CallPushesAndJumps : Prop :=
  ∀ (target : Word) (s : State),
    (s.sp ≠ 0xFFFF → ∃ t, exec (.call target) s = .next t ∧
      readByte t s.sp.toNat = s.pc.extractLsb' 0 8 ∧ readByte t (s.sp.toNat + 1) = s.pc.extractLsb' 8 8 ∧
      t.sp = s.sp + 2 ∧ t.pc = target ∧ MemSameOutsideWord s.sp s t ∧ RegistersSame s t) ∧
    (s.sp = 0xFFFF → ∃ t, exec (.call target) s = .fault (.raised (.memoryOutOfRange 0xFFFF 2) t) ∧
      LeftByPartialWrite s.pc s t)

/-- RET (R127): steps `SP` back by 2 and loads `PC` from the two bytes there; with `SP` = 0x0001 it raises
`MemoryOutOfRange(0xFFFF, 2)` with `SP` left at 0xFFFF (the spec's decision D10, log entry 14). -/
def Obligations.RetPopsIntoPc : Prop :=
  ∀ s : State,
    (s.sp ≠ 0x0001 → ∃ t, exec .ret s = .next t ∧ t.sp = s.sp - 2 ∧
      t.pc = readByte s ((s.sp - 2).toNat + 1) ++ readByte s (s.sp - 2).toNat ∧
      MemSame s t ∧ RegistersSame s t) ∧
    (s.sp = 0x0001 → ∃ t, exec .ret s = .fault (.raised (.memoryOutOfRange 0xFFFF 2) t) ∧
      LeftBy (.memoryOutOfRange 0xFFFF 2) { s with sp := 0xFFFF } t)

/-- CALL then RET, with `SP` and the two stack bytes unchanged in between, restores `SP` and returns to the instruction
after the CALL (R125, R128, R129). -/
def Obligations.CallThenRetReturns : Prop :=
  ∀ (target : Word) (s t u : State), exec (.call target) s = .next t → u.sp = t.sp →
    readByte u s.sp.toNat = readByte t s.sp.toNat → readByte u (s.sp.toNat + 1) = readByte t (s.sp.toNat + 1) →
    ∃ v, exec .ret u = .next v ∧ v.pc = s.pc ∧ v.sp = s.sp ∧ MemSame u v ∧ RegistersSame u v

/-! ### Data movement -/

/-- LDI (R140): loads the immediate; an index byte of 16 or more raises before any change (the spec's decision D3, log
entry 10). -/
def Obligations.LdiLoadsTheImmediate : Prop :=
  ∀ (r : Byte) (imm : Word) (s : State),
    (∀ k : RegIdx, r.toNat = k.val →
      ∃ t, exec (.ldi r imm) s = .next t ∧ readGp t k = imm ∧ FrameExcept [k] [] s t) ∧
    (16 ≤ r.toNat → ∃ t, exec (.ldi r imm) s = .fault (.raised (.registerIndexOutOfRange r) t) ∧
      LeftBy (.registerIndexOutOfRange r) s t)

/-- LDM (R141): loads the little-endian word at the immediate address, odd or even; the index is checked first, then the
address 0xFFFF raises (the index fault is the spec's decision D3, log entry 10). -/
def Obligations.LdmLoadsTheWordAtTheAddress : Prop :=
  ∀ (r : Byte) (addr : Word) (s : State),
    (∀ k : RegIdx, r.toNat = k.val → addr ≠ 0xFFFF →
      ∃ t, exec (.ldm r addr) s = .next t ∧
        readGp t k = readByte s (addr.toNat + 1) ++ readByte s addr.toNat ∧ FrameExcept [k] [] s t) ∧
    (r.toNat < 16 → addr = 0xFFFF → ∃ t, exec (.ldm r addr) s = .fault (.raised (.memoryOutOfRange 0xFFFF 2) t) ∧
      LeftBy (.memoryOutOfRange 0xFFFF 2) s t) ∧
    (16 ≤ r.toNat → ∃ t, exec (.ldm r addr) s = .fault (.raised (.registerIndexOutOfRange r) t) ∧
      LeftBy (.registerIndexOutOfRange r) s t)

/-- STM (R142): stores the register low byte first at the immediate address; the index is checked first, then the address
0xFFFF raises with the partial write of R56 (the spec's decisions D3 and D10, log entries 10 and 6). -/
def Obligations.StmStoresTheRegister : Prop :=
  ∀ (r : Byte) (addr : Word) (s : State),
    (∀ k : RegIdx, r.toNat = k.val → addr ≠ 0xFFFF →
      ∃ t, exec (.stm r addr) s = .next t ∧
        readByte t addr.toNat = (readGp s k).extractLsb' 0 8 ∧
        readByte t (addr.toNat + 1) = (readGp s k).extractLsb' 8 8 ∧
        MemSameOutsideWord addr s t ∧ RegistersSame s t ∧ t.pc = s.pc ∧ t.sp = s.sp) ∧
    (∀ k : RegIdx, r.toNat = k.val → addr = 0xFFFF →
      ∃ t, exec (.stm r addr) s = .fault (.raised (.memoryOutOfRange 0xFFFF 2) t) ∧
        LeftByPartialWrite (readGp s k) s t) ∧
    (16 ≤ r.toNat → ∃ t, exec (.stm r addr) s = .fault (.raised (.registerIndexOutOfRange r) t) ∧
      LeftBy (.registerIndexOutOfRange r) s t)

/-- MOV (R143): copies GP[y] to GP[x]; no flag is written. -/
def Obligations.MovCopiesARegister : Prop :=
  ∀ (x y : RegIdx) (s : State),
    ∃ t, exec (.mov x y) s = .next t ∧ readGp t x = readGp s y ∧ FrameExcept [x] [] s t

/-! ### Logic -/

/-- TSTI (R170): Z and N of GP[r] AND imm16, no register written; an index byte of 16 or more raises (the spec's decision
D3, log entry 10). -/
def Obligations.TstiSetsZeroAndNegative : Prop :=
  ∀ (r : Byte) (imm : Word) (s : State),
    (∀ k : RegIdx, r.toNat = k.val → ∃ t, exec (.tsti r imm) s = .next t ∧
      (getFlag t .z = true ↔ readGp s k &&& imm = 0) ∧ getFlag t .n = (readGp s k &&& imm).getLsbD 15 ∧
      FrameExcept [] [.z, .n] s t) ∧
    (16 ≤ r.toNat → ∃ t, exec (.tsti r imm) s = .fault (.raised (.registerIndexOutOfRange r) t) ∧
      LeftBy (.registerIndexOutOfRange r) s t)

/-- XOR (R171): the result in GP[x], Z and N from it, C and O unchanged. -/
def Obligations.XorWritesResultZeroAndNegative : Prop :=
  ∀ (x y : RegIdx) (s : State), ∃ t, exec (.xor x y) s = .next t ∧
    readGp t x = readGp s x ^^^ readGp s y ∧ (getFlag t .z = true ↔ readGp s x ^^^ readGp s y = 0) ∧
    getFlag t .n = (readGp s x ^^^ readGp s y).getLsbD 15 ∧ FrameExcept [x] [.z, .n] s t

/-- OR (R172): the result in GP[x], Z and N from it, C and O unchanged. -/
def Obligations.OrWritesResultZeroAndNegative : Prop :=
  ∀ (x y : RegIdx) (s : State), ∃ t, exec (.or x y) s = .next t ∧
    readGp t x = readGp s x ||| readGp s y ∧ (getFlag t .z = true ↔ readGp s x ||| readGp s y = 0) ∧
    getFlag t .n = (readGp s x ||| readGp s y).getLsbD 15 ∧ FrameExcept [x] [.z, .n] s t

/-! ### Add and subtract -/

/-- ADD (R173): the sum modulo 2^16 in GP[x], and Z, N, O, C by R162 to R165. -/
def Obligations.AddWritesSumAndFlags : Prop :=
  ∀ (x y : RegIdx) (s : State), ∃ t, exec (.add x y) s = .next t ∧
    readGp t x = readGp s x + readGp s y ∧
    (getFlag t .z = true ↔ readGp s x + readGp s y = 0) ∧
    (getFlag t .n = true ↔ (readGp s x + readGp s y).toInt < 0) ∧
    (getFlag t .o = true ↔
      ((readGp s x).toInt > 0 ∧ (readGp s y).toInt > 0 ∧ (readGp s x + readGp s y).toInt < 0) ∨
      ((readGp s x).toInt < 0 ∧ (readGp s y).toInt < 0 ∧ (readGp s x + readGp s y).toInt > 0)) ∧
    (getFlag t .c = true ↔ (readGp s x).toNat + (readGp s y).toNat ≥ 0x10000) ∧
    FrameExcept [x] [.z, .n, .o, .c] s t

/-- ADDI (R174): the sum with the immediate modulo 2^16 in GP[x], and ADD's flags. -/
def Obligations.AddiWritesSumAndFlags : Prop :=
  ∀ (x : RegIdx) (imm : Word) (s : State), ∃ t, exec (.addi x imm) s = .next t ∧
    readGp t x = readGp s x + imm ∧
    (getFlag t .z = true ↔ readGp s x + imm = 0) ∧
    (getFlag t .n = true ↔ (readGp s x + imm).toInt < 0) ∧
    (getFlag t .o = true ↔
      ((readGp s x).toInt > 0 ∧ imm.toInt > 0 ∧ (readGp s x + imm).toInt < 0) ∨
      ((readGp s x).toInt < 0 ∧ imm.toInt < 0 ∧ (readGp s x + imm).toInt > 0)) ∧
    (getFlag t .c = true ↔ (readGp s x).toNat + imm.toNat ≥ 0x10000) ∧
    FrameExcept [x] [.z, .n, .o, .c] s t

/-- SUB (R175): the difference modulo 2^16 in GP[x], and Z, N, O, C by R162 to R164 and R166. -/
def Obligations.SubWritesDifferenceAndFlags : Prop :=
  ∀ (x y : RegIdx) (s : State), ∃ t, exec (.sub x y) s = .next t ∧
    readGp t x = readGp s x - readGp s y ∧
    (getFlag t .z = true ↔ readGp s x = readGp s y) ∧
    (getFlag t .n = true ↔ (readGp s x - readGp s y).toInt < 0) ∧
    (getFlag t .o = true ↔
      ((readGp s x).toInt > 0 ∧ (readGp s y).toInt > 0 ∧ (readGp s x - readGp s y).toInt < 0) ∨
      ((readGp s x).toInt < 0 ∧ (readGp s y).toInt < 0 ∧ (readGp s x - readGp s y).toInt > 0)) ∧
    (getFlag t .c = true ↔ (readGp s x).toNat < (readGp s y).toNat) ∧
    FrameExcept [x] [.z, .n, .o, .c] s t

/-- CMPI (R176): SUB's flags of GP[x] - imm16, no register written. -/
def Obligations.CmpiWritesFlagsOnly : Prop :=
  ∀ (x : RegIdx) (imm : Word) (s : State), ∃ t, exec (.cmpi x imm) s = .next t ∧
    (getFlag t .z = true ↔ readGp s x = imm) ∧
    (getFlag t .n = true ↔ (readGp s x - imm).toInt < 0) ∧
    (getFlag t .o = true ↔
      ((readGp s x).toInt > 0 ∧ imm.toInt > 0 ∧ (readGp s x - imm).toInt < 0) ∨
      ((readGp s x).toInt < 0 ∧ imm.toInt < 0 ∧ (readGp s x - imm).toInt > 0)) ∧
    (getFlag t .c = true ↔ (readGp s x).toNat < imm.toNat) ∧
    FrameExcept [] [.z, .n, .o, .c] s t

/-- R169 (a): O after an addition is true two's-complement overflow in every case but 0x8000 + 0x8000. -/
def Obligations.AddOverflowIsSignedOverflowButOnce : Prop :=
  ∀ a b : Word, (addF a b).ovf = true ↔
    ((a.toInt + b.toInt > 32767 ∨ a.toInt + b.toInt < -32768) ∧ ¬ (a = 0x8000 ∧ b = 0x8000))

/-- R169 (b): O after a subtraction is set exactly when both operands are positive and the first is smaller, or both
negative and the first is greater; it is clear on every true signed overflow. -/
def Obligations.SubOverflowIsNotSignedOverflow : Prop :=
  ∀ a b : Word,
    ((subF a b).ovf = true ↔
      (a.toInt > 0 ∧ b.toInt > 0 ∧ a.toInt < b.toInt) ∨ (a.toInt < 0 ∧ b.toInt < 0 ∧ a.toInt > b.toInt)) ∧
    (a.toInt - b.toInt > 32767 ∨ a.toInt - b.toInt < -32768 → (subF a b).ovf = false)

/-! ### Multiply and divide -/

/-- MUL2 (R177, R179): the low 16 bits of the product in GP[z], Z and N from them, and C by the carry function, which obeys
R179 (i) to (iii) and is open elsewhere (log entry 5). O is unchanged. -/
def Obligations.Mul2WritesProductAndFlags : Prop :=
  ∀ (x y z : RegIdx) (s : State), ∃ t, exec (.mul2 x y z) s = .next t ∧
    readGp t z = readGp s x * readGp s y ∧
    (getFlag t .z = true ↔ readGp s x * readGp s y = 0) ∧
    getFlag t .n = (readGp s x * readGp s y).getLsbD 15 ∧
    getFlag t .c = mul2Carry (readGp s x) (readGp s y) ∧
    ((readGp s x).toInt * (readGp s y).toInt = 0 → getFlag t .c = false) ∧
    (0 ≤ (readGp s x).toInt → 0 ≤ (readGp s y).toInt → (readGp s x).toInt * (readGp s y).toInt ≤ 0x7FFF →
      getFlag t .c = false) ∧
    (0 ≤ (readGp s x).toInt → 0 ≤ (readGp s y).toInt → (readGp s x).toInt * (readGp s y).toInt > 0xFFFF →
      getFlag t .c = true) ∧
    FrameExcept [z] [.z, .n, .c] s t

/-- DIV2 (R178): the signed quotient truncated toward zero, modulo 2^16, in GP[z]; Z and N from it; C when the remainder,
which has the dividend's sign, is not zero; O unchanged. A zero divisor raises with nothing written (the spec's decision D9,
log entry 11; the signed reading is the spec's derivation, log entry 21). -/
def Obligations.Div2WritesQuotientAndFlags : Prop :=
  ∀ (x y z : RegIdx) (s : State),
    (readGp s y ≠ 0 → ∃ (t : State) (q r : Int), exec (.div2 x y z) s = .next t ∧
      (readGp s x).toInt = (readGp s y).toInt * q + r ∧ |r| < |(readGp s y).toInt| ∧
      (r > 0 → (readGp s x).toInt > 0) ∧ (r < 0 → (readGp s x).toInt < 0) ∧
      readGp t z = BitVec.ofInt 16 q ∧
      (getFlag t .z = true ↔ BitVec.ofInt 16 q = 0) ∧ getFlag t .n = (BitVec.ofInt 16 q).getLsbD 15 ∧
      (getFlag t .c = true ↔ r ≠ 0) ∧ FrameExcept [z] [.z, .n, .c] s t) ∧
    (readGp s y = 0 → ∃ t, exec (.div2 x y z) s = .fault (.raised .divideByZero t) ∧ LeftBy .divideByZero s t)

/-! ### The memory bus, the FLAGS setters, the graphics call and the host's fill -/

/-- The out-of-range accesses are exactly a 16-bit access at 0xFFFF and a 32-bit read at 0xFFFD, 0xFFFE or 0xFFFF (R54). -/
def Obligations.OutOfRangeAccessesAreExactly : Prop :=
  ∀ (s : State) (a v : Word),
    (inRange a 2 = true ↔ a.toNat + 2 ≤ 65536) ∧ (inRange a 4 = true ↔ a.toNat + 4 ≤ 65536) ∧
    (read16 s a = none ↔ a = 0xFFFF) ∧
    (read32 s a = none ↔ a = 0xFFFD ∨ a = 0xFFFE ∨ a = 0xFFFF) ∧
    ((∃ t, write16 s a v = .fault (.raised (.memoryOutOfRange a 2) t)) ↔ a = 0xFFFF)

/-- A 16-bit read after a 16-bit write at the same address gives the value, and a 32-bit read that overlaps it sees its
bytes (R57). -/
def Obligations.WriteThenReadGivesTheValue : Prop :=
  ∀ (s : State) (a v : Word), a ≠ 0xFFFF → ∃ t, write16 s a v = .next t ∧
    read16 t a = some v ∧ MemSameOutsideWord a s t ∧
    (a.toNat ≤ 0xFFFC → ∃ hi, read16 s (a + 2) = some hi ∧ read32 t a = some (hi ++ v))

/-- A setter sets or clears exactly one bit of FLAGS and leaves all others, and all other state, untouched (R31). -/
def Obligations.FlagSettersTouchOneBit : Prop :=
  ∀ (s : State) (f : Flag) (b : Bool),
    getFlag (setFlag s f b) f = b ∧ FrameExcept [] [f] s (setFlag s f b)

/-- The driver's view of FLAGS (R30, R38's `ReadFLAGS`, R218): C, Z, O and N at bits 1, 2, 6 and 7 as the machine holds them,
bits 0, 3, 4 and 5 zero in every state, and in a state that meets the invariant the whole stored byte (that `ReadFLAGS` masks
is the model's reading, log entry 24). -/
def Obligations.DriverReadsTheFlags : Prop :=
  ∀ s : State,
    ((readFlags s).getLsbD 1 = s.flags.getLsbD 1 ∧ (readFlags s).getLsbD 2 = s.flags.getLsbD 2 ∧
      (readFlags s).getLsbD 6 = s.flags.getLsbD 6 ∧ (readFlags s).getLsbD 7 = s.flags.getLsbD 7) ∧
    (getFlag s .c = s.flags.getLsbD 1 ∧ getFlag s .z = s.flags.getLsbD 2 ∧ getFlag s .o = s.flags.getLsbD 6 ∧
      getFlag s .n = s.flags.getLsbD 7) ∧
    readFlags s &&& 0x39 = 0 ∧ (s.Inv → readFlags s = s.flags)

/-- The driver's read-only access (R218): the cycle count, `PC`, `SP`, every register, FLAGS as `ReadFLAGS` gives it, and
every byte of memory. That the view holds these alone, without the graphics state and `RUN`, is the model's choice, log
entry 30. -/
def Obligations.DiagnosticsShowTheState : Prop :=
  ∀ s : State,
    (diagnostics s).cycles = s.cycles ∧ (diagnostics s).pc = s.pc ∧ (diagnostics s).sp = s.sp ∧
    (∀ i : RegIdx, (diagnostics s).gp.get i = readGp s i) ∧ (diagnostics s).flags = readFlags s ∧
    ∀ a, Memory.read (diagnostics s).mem a = readByte s a

/-- `AcceptCommand` (R64): NOP has no effect, SPR sets the sprite's width and height from p[1] and p[2], any other command
raises `UnimplementedCommand` (the enumeration of commands is the spec's decision D18, log entry 16). That the call, which no
step makes, raises as a step does, with the same `RUN` and the same draw for `CYCLES`, and acts whatever `RUN` is, a faulted
machine included, is the model's reading, log entry 25. -/
def Obligations.AcceptCommandActsOnSprAlone : Prop :=
  ∀ (p : Vector Byte 3) (s : State),
    sendCommandToGpu .nop p s = .next s ∧
    sendCommandToGpu .spr p s = .next { s with gpu := { s.gpu with spriteW := p.get 1, spriteH := p.get 2 } } ∧
    ∃ t, sendCommandToGpu .other p s = .fault (.raised (.unimplementedCommand .other) t) ∧
      LeftBy (.unimplementedCommand .other) s t

/-- `FillMemory` (R62), on a machine whose run is on: in range it copies the bytes and changes no other byte and no other state; past the address space it
returns `OutOfRange` and no state (that nothing is written then is the spec's decision D13, log entry 15; on a faulted machine
see `FaultedMachineMakesNoStep`). -/
def Obligations.FillMemoryCopiesTheBytes : Prop :=
  ∀ (bytes : List Byte) (start : Word) (s : State), s.run = .running →
    (start.toNat + bytes.length ≤ 65536 → ∃ t, fillMemory bytes start s = .ok t ∧
      (∀ (k : Nat) (h : k < bytes.length), readByte t (start.toNat + k) = bytes[k]) ∧
      (∀ a, a < start.toNat ∨ start.toNat + bytes.length ≤ a → readByte t a = readByte s a) ∧
      t.pc = s.pc ∧ t.sp = s.sp ∧ RegistersSame s t) ∧
    (start.toNat + bytes.length > 65536 → fillMemory bytes start s = .error (.callError .outOfRange))

/-- The start-address hand-off (R233, R218; the spec's own decisions D7 and D20, log entries 19 and 20), on a machine whose
run is on: the driver's `SetPC` takes any address and changes nothing else. -/
def Obligations.DriverSetPcHandsOverTheStart : Prop :=
  ∀ (start : Word) (s : State), s.run = .running → driverSetPc start s = .ok { s with pc := start }
end

