-- ==== Sys2Proof/Laws/Decode.lean ====
section
/-! SUPPORT. The laws of the decoder: the dispatch table finds exactly the mapped opcodes, and packing and splitting words
and bytes are inverse. -/

namespace Sys2Proof

theorem Mnemonic.mem_all (k : Mnemonic) : k ∈ Mnemonic.all := by cases k <;> decide

/-- An entry of the dispatch table has the opcode byte it stands at. -/
theorem dispatchEntry_some {m : OpcodeMap} {op : Byte} {k : Mnemonic} (h : dispatchEntry m op = some k) : m k = op := by
  have := List.find?_some h
  simpa using this

/-- The table of an injective map finds each operation at its byte. -/
theorem dispatchEntry_map {m : OpcodeMap} (hm : m.Valid) (k : Mnemonic) : dispatchEntry m (m k) = some k := by
  cases h : dispatchEntry m (m k) with
  | none =>
    have := List.find?_eq_none.1 h k (Mnemonic.mem_all k)
    simp at this
  | some l => rw [hm l k (dispatchEntry_some h)]

/-- The table is empty at a byte exactly when no operation maps to it. -/
theorem dispatchEntry_none {m : OpcodeMap} {op : Byte} : dispatchEntry m op = none ↔ ∀ k, m k ≠ op := by
  unfold dispatchEntry
  rw [List.find?_eq_none]
  exact ⟨fun h k => by simpa using h k (Mnemonic.mem_all k), fun h k _ => by simpa using h k⟩

/-- The default map is injective (R86). -/
theorem defaultOpcodeMap_valid : defaultOpcodeMap.Valid := by
  intro k l
  cases k <;> cases l <;> decide

theorem splitWord_joinWord (r : RawInstr) : splitWord (joinWord r) = r := by
  obtain ⟨op, p0, p1, p2⟩ := r
  simp only [splitWord, joinWord, RawInstr.mk.injEq]
  refine ⟨?_, ?_, ?_, ?_⟩ <;>
  · apply BitVec.eq_of_getLsbD_eq
    intro k hk
    simp only [BitVec.getLsbD_extractLsb', BitVec.getLsbD_append]
    interval_cases k <;> simp

theorem lowNibble_packNibbles (high low : RegIdx) : lowNibble (packNibbles high low) = low := by
  revert high low
  decide

theorem highNibble_packNibbles (high low : RegIdx) : highNibble (packNibbles high low) = high := by
  revert high low
  decide

theorem highByte_append_lowByte (v : Word) : highByte v ++ lowByte v = v := by
  apply BitVec.eq_of_getLsbD_eq
  intro k hk
  simp only [highByte, lowByte, BitVec.getLsbD_append, BitVec.getLsbD_extractLsb']
  interval_cases k <;> simp

end Sys2Proof
end

