-- ==== Sys2Proof/Laws/State.lean ====
section
/-! SUPPORT. What each update of the state does to each field: one lemma per field per update. -/

namespace Sys2Proof.Machine

/-! ### `setPc` -/

@[simp] theorem setPc_pc (s : State) (v : Word) :
    (setPc s v).pc = v := rfl
@[simp] theorem setPc_sp (s : State) (v : Word) : (setPc s v).sp = s.sp := rfl
@[simp] theorem setPc_gp (s : State) (v : Word) : (setPc s v).gp = s.gp := rfl
@[simp] theorem setPc_flags (s : State) (v : Word) : (setPc s v).flags = s.flags := rfl
@[simp] theorem setPc_mem (s : State) (v : Word) : (setPc s v).mem = s.mem := rfl
@[simp] theorem setPc_cycles (s : State) (v : Word) : (setPc s v).cycles = s.cycles := rfl
@[simp] theorem setPc_gpu (s : State) (v : Word) : (setPc s v).gpu = s.gpu := rfl
@[simp] theorem setPc_run (s : State) (v : Word) : (setPc s v).run = s.run := rfl
@[simp] theorem setPc_draws (s : State) (v : Word) : (setPc s v).draws = s.draws := rfl

/-! ### `setSp` -/

@[simp] theorem setSp_pc (s : State) (v : Word) : (setSp s v).pc = s.pc := rfl
@[simp] theorem setSp_sp (s : State) (v : Word) :
    (setSp s v).sp = v := rfl
@[simp] theorem setSp_gp (s : State) (v : Word) : (setSp s v).gp = s.gp := rfl
@[simp] theorem setSp_flags (s : State) (v : Word) : (setSp s v).flags = s.flags := rfl
@[simp] theorem setSp_mem (s : State) (v : Word) : (setSp s v).mem = s.mem := rfl
@[simp] theorem setSp_cycles (s : State) (v : Word) : (setSp s v).cycles = s.cycles := rfl
@[simp] theorem setSp_gpu (s : State) (v : Word) : (setSp s v).gpu = s.gpu := rfl
@[simp] theorem setSp_run (s : State) (v : Word) : (setSp s v).run = s.run := rfl
@[simp] theorem setSp_draws (s : State) (v : Word) : (setSp s v).draws = s.draws := rfl

/-! ### `writeGp` -/

@[simp] theorem writeGp_pc (s : State) (i : RegIdx) (v : Word) : (writeGp s i v).pc = s.pc := rfl
@[simp] theorem writeGp_sp (s : State) (i : RegIdx) (v : Word) : (writeGp s i v).sp = s.sp := rfl
@[simp] theorem writeGp_gp (s : State) (i : RegIdx) (v : Word) :
    (writeGp s i v).gp = s.gp.set i.val v i.isLt := rfl
@[simp] theorem writeGp_flags (s : State) (i : RegIdx) (v : Word) : (writeGp s i v).flags = s.flags := rfl
@[simp] theorem writeGp_mem (s : State) (i : RegIdx) (v : Word) : (writeGp s i v).mem = s.mem := rfl
@[simp] theorem writeGp_cycles (s : State) (i : RegIdx) (v : Word) : (writeGp s i v).cycles = s.cycles := rfl
@[simp] theorem writeGp_gpu (s : State) (i : RegIdx) (v : Word) : (writeGp s i v).gpu = s.gpu := rfl
@[simp] theorem writeGp_run (s : State) (i : RegIdx) (v : Word) : (writeGp s i v).run = s.run := rfl
@[simp] theorem writeGp_draws (s : State) (i : RegIdx) (v : Word) : (writeGp s i v).draws = s.draws := rfl

/-! ### `setFlag` -/

@[simp] theorem setFlag_pc (s : State) (f : Flag) (b : Bool) : (setFlag s f b).pc = s.pc := rfl
@[simp] theorem setFlag_sp (s : State) (f : Flag) (b : Bool) : (setFlag s f b).sp = s.sp := rfl
@[simp] theorem setFlag_gp (s : State) (f : Flag) (b : Bool) : (setFlag s f b).gp = s.gp := rfl
@[simp] theorem setFlag_flags (s : State) (f : Flag) (b : Bool) :
    (setFlag s f b).flags = if b then s.flags ||| flagMask f else s.flags &&& ~~~flagMask f := rfl
@[simp] theorem setFlag_mem (s : State) (f : Flag) (b : Bool) : (setFlag s f b).mem = s.mem := rfl
@[simp] theorem setFlag_cycles (s : State) (f : Flag) (b : Bool) : (setFlag s f b).cycles = s.cycles := rfl
@[simp] theorem setFlag_gpu (s : State) (f : Flag) (b : Bool) : (setFlag s f b).gpu = s.gpu := rfl
@[simp] theorem setFlag_run (s : State) (f : Flag) (b : Bool) : (setFlag s f b).run = s.run := rfl
@[simp] theorem setFlag_draws (s : State) (f : Flag) (b : Bool) : (setFlag s f b).draws = s.draws := rfl

/-! ### `writeByte` -/

@[simp] theorem writeByte_pc (s : State) (a : Nat) (v : Byte) : (writeByte s a v).pc = s.pc := rfl
@[simp] theorem writeByte_sp (s : State) (a : Nat) (v : Byte) : (writeByte s a v).sp = s.sp := rfl
@[simp] theorem writeByte_gp (s : State) (a : Nat) (v : Byte) : (writeByte s a v).gp = s.gp := rfl
@[simp] theorem writeByte_flags (s : State) (a : Nat) (v : Byte) : (writeByte s a v).flags = s.flags := rfl
@[simp] theorem writeByte_mem (s : State) (a : Nat) (v : Byte) :
    (writeByte s a v).mem = Memory.write s.mem a v := rfl
@[simp] theorem writeByte_cycles (s : State) (a : Nat) (v : Byte) : (writeByte s a v).cycles = s.cycles := rfl
@[simp] theorem writeByte_gpu (s : State) (a : Nat) (v : Byte) : (writeByte s a v).gpu = s.gpu := rfl
@[simp] theorem writeByte_run (s : State) (a : Nat) (v : Byte) : (writeByte s a v).run = s.run := rfl
@[simp] theorem writeByte_draws (s : State) (a : Nat) (v : Byte) : (writeByte s a v).draws = s.draws := rfl

/-! ### `setZN` -/

@[simp] theorem setZN_pc (s : State) (res : Word) : (setZN s res).pc = s.pc := rfl
@[simp] theorem setZN_sp (s : State) (res : Word) : (setZN s res).sp = s.sp := rfl
@[simp] theorem setZN_gp (s : State) (res : Word) : (setZN s res).gp = s.gp := rfl
@[simp] theorem setZN_mem (s : State) (res : Word) : (setZN s res).mem = s.mem := rfl
@[simp] theorem setZN_cycles (s : State) (res : Word) : (setZN s res).cycles = s.cycles := rfl
@[simp] theorem setZN_gpu (s : State) (res : Word) : (setZN s res).gpu = s.gpu := rfl
@[simp] theorem setZN_run (s : State) (res : Word) : (setZN s res).run = s.run := rfl
@[simp] theorem setZN_draws (s : State) (res : Word) : (setZN s res).draws = s.draws := rfl

/-! ### `setZNOC` -/

@[simp] theorem setZNOC_pc (s : State) (out : AluOut) : (setZNOC s out).pc = s.pc := rfl
@[simp] theorem setZNOC_sp (s : State) (out : AluOut) : (setZNOC s out).sp = s.sp := rfl
@[simp] theorem setZNOC_gp (s : State) (out : AluOut) : (setZNOC s out).gp = s.gp := rfl
@[simp] theorem setZNOC_mem (s : State) (out : AluOut) : (setZNOC s out).mem = s.mem := rfl
@[simp] theorem setZNOC_cycles (s : State) (out : AluOut) : (setZNOC s out).cycles = s.cycles := rfl
@[simp] theorem setZNOC_gpu (s : State) (out : AluOut) : (setZNOC s out).gpu = s.gpu := rfl
@[simp] theorem setZNOC_run (s : State) (out : AluOut) : (setZNOC s out).run = s.run := rfl
@[simp] theorem setZNOC_draws (s : State) (out : AluOut) : (setZNOC s out).draws = s.draws := rfl

/-! ### `setZNC` -/

@[simp] theorem setZNC_pc (s : State) (res : Word) (b : Bool) : (setZNC s res b).pc = s.pc := rfl
@[simp] theorem setZNC_sp (s : State) (res : Word) (b : Bool) : (setZNC s res b).sp = s.sp := rfl
@[simp] theorem setZNC_gp (s : State) (res : Word) (b : Bool) : (setZNC s res b).gp = s.gp := rfl
@[simp] theorem setZNC_mem (s : State) (res : Word) (b : Bool) : (setZNC s res b).mem = s.mem := rfl
@[simp] theorem setZNC_cycles (s : State) (res : Word) (b : Bool) : (setZNC s res b).cycles = s.cycles := rfl
@[simp] theorem setZNC_gpu (s : State) (res : Word) (b : Bool) : (setZNC s res b).gpu = s.gpu := rfl
@[simp] theorem setZNC_run (s : State) (res : Word) (b : Bool) : (setZNC s res b).run = s.run := rfl
@[simp] theorem setZNC_draws (s : State) (res : Word) (b : Bool) : (setZNC s res b).draws = s.draws := rfl

/-! ### `writeWord` -/

@[simp] theorem writeWord_pc (s : State) (a v : Word) : (writeWord s a v).pc = s.pc := rfl
@[simp] theorem writeWord_sp (s : State) (a v : Word) : (writeWord s a v).sp = s.sp := rfl
@[simp] theorem writeWord_gp (s : State) (a v : Word) : (writeWord s a v).gp = s.gp := rfl
@[simp] theorem writeWord_flags (s : State) (a v : Word) : (writeWord s a v).flags = s.flags := rfl
@[simp] theorem writeWord_cycles (s : State) (a v : Word) : (writeWord s a v).cycles = s.cycles := rfl
@[simp] theorem writeWord_gpu (s : State) (a v : Word) : (writeWord s a v).gpu = s.gpu := rfl
@[simp] theorem writeWord_run (s : State) (a v : Word) : (writeWord s a v).run = s.run := rfl
@[simp] theorem writeWord_draws (s : State) (a v : Word) : (writeWord s a v).draws = s.draws := rfl

/-! ### `partialWrite` -/

@[simp] theorem partialWrite_pc (s : State) (a v : Word) : (partialWrite s a v).pc = s.pc := rfl
@[simp] theorem partialWrite_sp (s : State) (a v : Word) : (partialWrite s a v).sp = s.sp := rfl
@[simp] theorem partialWrite_gp (s : State) (a v : Word) : (partialWrite s a v).gp = s.gp := rfl
@[simp] theorem partialWrite_flags (s : State) (a v : Word) : (partialWrite s a v).flags = s.flags := rfl
@[simp] theorem partialWrite_cycles (s : State) (a v : Word) : (partialWrite s a v).cycles = s.cycles := rfl
@[simp] theorem partialWrite_gpu (s : State) (a v : Word) : (partialWrite s a v).gpu = s.gpu := rfl
@[simp] theorem partialWrite_run (s : State) (a v : Word) : (partialWrite s a v).run = s.run := rfl

/-! ### `faultedState` -/

@[simp] theorem faultedState_pc (r : FaultReason) (s : State) : (faultedState r s).pc = s.pc := rfl
@[simp] theorem faultedState_sp (r : FaultReason) (s : State) : (faultedState r s).sp = s.sp := rfl
@[simp] theorem faultedState_gp (r : FaultReason) (s : State) : (faultedState r s).gp = s.gp := rfl
@[simp] theorem faultedState_flags (r : FaultReason) (s : State) : (faultedState r s).flags = s.flags := rfl
@[simp] theorem faultedState_mem (r : FaultReason) (s : State) : (faultedState r s).mem = s.mem := rfl
@[simp] theorem faultedState_gpu (r : FaultReason) (s : State) : (faultedState r s).gpu = s.gpu := rfl
@[simp] theorem faultedState_run (r : FaultReason) (s : State) : (faultedState r s).run = .faulted r := rfl

/-- `CYCLES` after a fault is n or n + 1, whichever the draw is (R35). -/
theorem faultedState_cycles (r : FaultReason) (s : State) :
    (faultedState r s).cycles = s.cycles ∨ (faultedState r s).cycles = s.cycles + 1 := by
  unfold faultedState
  cases Config.faultingStepCounts s.draws <;> simp

/-! ### The register-file steps as bit-vector sums -/

@[simp] theorem incrementPc_eq (s : State) : incrementPc s = setPc s (s.pc + 4) := by
  have h : BitVec.ofNat 16 (s.pc.toNat + 4) = s.pc + 4 := BitVec.eq_of_toNat_eq (by simp [BitVec.toNat_add])
  unfold incrementPc
  rw [h]

@[simp] theorem incrementSp_eq (s : State) : incrementSp s = setSp s (s.sp + 2) := by
  have h : BitVec.ofNat 16 (s.sp.toNat + 2) = s.sp + 2 := BitVec.eq_of_toNat_eq (by simp [BitVec.toNat_add])
  unfold incrementSp
  rw [h]

@[simp] theorem decrementSp_eq (s : State) : decrementSp s = setSp s (s.sp - 2) := by
  have h : BitVec.ofInt 16 ((s.sp.toNat : Int) - 2) = s.sp - 2 := by
    apply BitVec.eq_of_toNat_eq
    have := s.sp.isLt
    have h2 : (2 : Word).toNat = 2 := rfl
    rw [BitVec.toNat_ofInt, BitVec.toNat_sub, h2]
    omega
  unfold decrementSp
  rw [h]

@[simp] theorem getPc_eq (s : State) : getPc s = s.pc := rfl
@[simp] theorem getSp_eq (s : State) : getSp s = s.sp := rfl

/-! ### Reading a register after an update -/

theorem readGp_writeGp (s : State) (i j : RegIdx) (v : Word) :
    readGp (writeGp s i v) j = if i = j then v else readGp s j := by
  unfold readGp writeGp
  simp only [Vector.get_eq_getElem, Vector.getElem_set, Fin.ext_iff]

@[simp] theorem readGp_writeGp_self (s : State) (i : RegIdx) (v : Word) : readGp (writeGp s i v) i = v := by
  simp [readGp_writeGp]

theorem readGp_writeGp_ne (s : State) {i j : RegIdx} (v : Word) (h : i ≠ j) :
    readGp (writeGp s i v) j = readGp s j := by
  simp [readGp_writeGp, h]

/-- A register read depends on the register file alone. -/
theorem readGp_congr {s t : State} (h : t.gp = s.gp) (i : RegIdx) : readGp t i = readGp s i := by
  unfold readGp
  rw [h]

/-- A byte read depends on memory alone. -/
theorem readByte_congr {s t : State} (h : t.mem = s.mem) (a : Nat) : readByte t a = readByte s a := by
  unfold readByte
  rw [h]

end Sys2Proof.Machine
end

