-- ==== Sys2Proof/Laws/Flags.lean ====
section
/-! SUPPORT. The laws of the FLAGS setters (10_state.md R31) and of the ALU's results. -/

namespace Sys2Proof.Machine

theorem flagBit_lt (f : Flag) : flagBit f < 8 := by cases f <;> decide

theorem flagBit_inj {f g : Flag} : flagBit f = flagBit g ↔ f = g := by
  cases f <;> cases g <;> decide

/-- Every bit of FLAGS after a setter: the written flag at its own bit, the old bit at every other. -/
theorem setFlag_getLsbD (s : State) (f : Flag) (b : Bool) (k : Nat) :
    (setFlag s f b).flags.getLsbD k = if k = flagBit f then b else s.flags.getLsbD k := by
  have hf := flagBit_lt f
  simp only [setFlag_flags, flagMask]
  cases b
  · simp only [Bool.false_eq_true, if_false, BitVec.getLsbD_and, BitVec.getLsbD_not, BitVec.getLsbD_twoPow]
    by_cases hk : k = flagBit f
    · subst hk; simp [hf]
    · by_cases hk8 : k < 8
      · simp [hk, hk8, Ne.symm hk]
      · simp [hk, hk8, BitVec.getLsbD_of_ge s.flags k (by omega)]
  · simp only [if_true, BitVec.getLsbD_or, BitVec.getLsbD_twoPow]
    by_cases hk : k = flagBit f
    · subst hk; simp [hf]
    · simp [hk, Ne.symm hk]

theorem getFlag_setFlag (s : State) (f g : Flag) (b : Bool) :
    getFlag (setFlag s f b) g = if f = g then b else getFlag s g := by
  unfold getFlag
  rw [setFlag_getLsbD]
  simp only [flagBit_inj, eq_comm]

@[simp] theorem getFlag_setFlag_self (s : State) (f : Flag) (b : Bool) : getFlag (setFlag s f b) f = b := by
  simp [getFlag_setFlag]

/-- A flag read depends on FLAGS alone. -/
theorem getFlag_congr {s t : State} (h : t.flags = s.flags) (f : Flag) : getFlag t f = getFlag s f := by
  unfold getFlag
  rw [h]

/-- A setter keeps the reserved bits as they are (R31). -/
theorem setFlag_reserved (s : State) (f : Flag) (b : Bool) :
    (setFlag s f b).flags &&& reservedFlagBits = s.flags &&& reservedFlagBits := by
  apply BitVec.eq_of_getLsbD_eq
  intro k hk
  rw [BitVec.getLsbD_and, BitVec.getLsbD_and, setFlag_getLsbD]
  split
  · rename_i h
    subst h
    have : reservedFlagBits.getLsbD (flagBit f) = false := by cases f <;> decide
    simp [this]
  · rfl

theorem setZN_reserved (s : State) (res : Word) :
    (setZN s res).flags &&& reservedFlagBits = s.flags &&& reservedFlagBits := by
  simp only [setZN, setFlag_reserved]

theorem setZNOC_reserved (s : State) (out : AluOut) :
    (setZNOC s out).flags &&& reservedFlagBits = s.flags &&& reservedFlagBits := by
  simp only [setZNOC, setFlag_reserved]

theorem setZNC_reserved (s : State) (res : Word) (b : Bool) :
    (setZNC s res b).flags &&& reservedFlagBits = s.flags &&& reservedFlagBits := by
  simp only [setZNC, setFlag_reserved, setZN_reserved]

/-! ### What the three groups of setters leave -/

theorem getFlag_setZN (s : State) (res : Word) (f : Flag) :
    getFlag (setZN s res) f = match f with
      | .z => zf res
      | .n => nf res
      | .o => getFlag s .o
      | .c => getFlag s .c := by
  cases f <;> simp [setZN, getFlag_setFlag]

theorem getFlag_setZNOC (s : State) (out : AluOut) (f : Flag) :
    getFlag (setZNOC s out) f = match f with
      | .z => out.zero
      | .n => out.neg
      | .o => out.ovf
      | .c => out.cry := by
  cases f <;> simp [setZNOC, getFlag_setFlag]

theorem getFlag_setZNC (s : State) (res : Word) (b : Bool) (f : Flag) :
    getFlag (setZNC s res b) f = match f with
      | .z => zf res
      | .n => nf res
      | .o => getFlag s .o
      | .c => b := by
  cases f <;> simp [setZNC, getFlag_setFlag, getFlag_setZN]

/-! ### The ALU's results as bit-vector operations -/

theorem trunc16_add (a b : Word) : trunc16 ((a.toNat : Int) + b.toNat) = a + b := by
  apply BitVec.eq_of_toNat_eq
  simp only [trunc16, BitVec.toNat_ofInt, BitVec.toNat_add]
  omega

theorem trunc16_sub (a b : Word) : trunc16 ((a.toNat : Int) - b.toNat) = a - b := by
  apply BitVec.eq_of_toNat_eq
  have ha := a.isLt
  have hb := b.isLt
  simp only [trunc16, BitVec.toNat_ofInt, BitVec.toNat_sub]
  omega

@[simp] theorem addF_res (a b : Word) : (addF a b).res = a + b := trunc16_add a b
@[simp] theorem subF_res (a b : Word) : (subF a b).res = a - b := trunc16_sub a b

theorem zf_eq (res : Word) : zf res = decide (res = 0) := by
  simp only [zf, decide_eq_decide]
  exact ⟨fun h => BitVec.eq_of_toNat_eq (by simpa using h), fun h => by simp [h]⟩

end Sys2Proof.Machine
end

