-- ==== Sys2Proof/Laws/Memory.lean ====
section
/-! SUPPORT. The laws of memory: a read after a write, and every memory operation keeps the canonical form. -/

namespace Sys2Proof.Machine

/-! ### Reading after writing -/

theorem Memory.read_insert (m : Memory) (a b : Nat) (v : Byte) :
    Memory.read (Memory.insert m a v) b = if b = a then v else Memory.read m b := by
  induction m with
  | nil => simp [Memory.insert, Memory.read]
  | cons p rest ih =>
    obtain ⟨c, w⟩ := p
    simp only [Memory.insert]
    split
    · simp [Memory.read]
    · split
      · subst_vars
        simp only [Memory.read]
        split <;> rfl
      · simp only [Memory.read, ih]
        split
        · split
          · omega
          · rfl
        · rfl

theorem Memory.read_erase (m : Memory) (a b : Nat) :
    Memory.read (Memory.erase m a) b = if b = a then Memory.unlisted else Memory.read m b := by
  induction m with
  | nil => simp [Memory.erase, Memory.read]
  | cons p rest ih =>
    obtain ⟨c, w⟩ := p
    unfold Memory.erase at ih ⊢
    rw [List.filter_cons]
    by_cases hc : c = a
    · simp only [hc, bne_self_eq_false, Bool.false_eq_true, if_false, ih, Memory.read]
      split <;> rfl
    · simp only [bne_iff_ne, ne_eq, hc, not_false_eq_true, if_true, Memory.read, ih]
      split
      · split
        · omega
        · rfl
      · rfl

/-- A read after a write: the value at the written address, the old byte at every other. -/
theorem Memory.read_write (m : Memory) (a b : Nat) (v : Byte) :
    Memory.read (Memory.write m a v) b = if b = a then v else Memory.read m b := by
  unfold Memory.write
  split
  · rename_i h
    rw [Memory.read_erase, h]
  · exact Memory.read_insert m a b v

/-- A read after writing bytes at rising addresses. -/
theorem Memory.read_writeBytes (m : Memory) (a b : Nat) (bytes : List Byte) :
    Memory.read (Memory.writeBytes m a bytes) b =
      if h : a ≤ b ∧ b - a < bytes.length then bytes[b - a]'h.2 else Memory.read m b := by
  induction bytes generalizing m a with
  | nil => simp [Memory.writeBytes]
  | cons v rest ih =>
    simp only [Memory.writeBytes, ih, Memory.read_write, List.length_cons]
    by_cases hb : b = a
    · subst hb
      simp
    · by_cases hin : a + 1 ≤ b ∧ b - (a + 1) < rest.length
      · have hin' : a ≤ b ∧ b - a < rest.length + 1 := by omega
        have hidx : b - a = (b - (a + 1)) + 1 := by omega
        rw [dif_pos hin, dif_pos hin']
        simp [hidx]
      · have hin' : ¬ (a ≤ b ∧ b - a < rest.length + 1) := by omega
        rw [dif_neg hin, dif_neg hin', if_neg hb]

theorem readByte_writeByte (s : State) (a b : Nat) (v : Byte) :
    readByte (writeByte s a v) b = if b = a then v else readByte s b := Memory.read_write s.mem a b v

/-- The two bytes of an in-range 16-bit write, and no other. -/
theorem readByte_writeWord (s : State) (a v : Word) (b : Nat) :
    readByte (writeWord s a v) b =
      if b = a.toNat + 1 then highByte v else if b = a.toNat then lowByte v else readByte s b := by
  unfold writeWord
  simp only [readByte_writeByte]

/-! ### The canonical form -/

theorem Memory.wf_nil : Memory.wf [] := by simp [Memory.wf]

theorem Memory.mem_insert {m : Memory} {a : Nat} {v : Byte} {p : Host.Cell} (h : p ∈ Memory.insert m a v) :
    p = (a, v) ∨ p ∈ m := by
  induction m with
  | nil => simpa [Memory.insert] using h
  | cons q rest ih =>
    obtain ⟨c, w⟩ := q
    simp only [Memory.insert] at h
    split at h
    · simpa using h
    · split at h
      · rcases List.mem_cons.1 h with h | h
        · exact .inl h
        · exact .inr (List.mem_cons_of_mem _ h)
      · rcases List.mem_cons.1 h with h | h
        · exact .inr (h ▸ List.mem_cons_self)
        · exact (ih h).imp id (List.mem_cons_of_mem _)

theorem Memory.insert_rising {m : Memory} (h : m.Pairwise (fun p q => p.1 < q.1)) (a : Nat) (v : Byte) :
    (Memory.insert m a v).Pairwise (fun p q => p.1 < q.1) := by
  induction m with
  | nil => simp [Memory.insert]
  | cons q rest ih =>
    obtain ⟨c, w⟩ := q
    obtain ⟨hc, hrest⟩ := List.pairwise_cons.1 h
    simp only [Memory.insert]
    split
    · rename_i hac
      refine List.pairwise_cons.2 ⟨fun p hp => ?_, h⟩
      rcases List.mem_cons.1 hp with rfl | hp
      · exact hac
      · exact hac.trans (hc p hp)
    · split
      · rename_i hac
        subst hac
        exact List.pairwise_cons.2 ⟨hc, hrest⟩
      · refine List.pairwise_cons.2 ⟨fun p hp => ?_, ih hrest⟩
        rcases Memory.mem_insert hp with rfl | hp
        · show c < a
          omega
        · exact hc p hp

/-- A write inside the address space keeps the canonical form. -/
theorem Memory.wf_write {m : Memory} (h : Memory.wf m) {a : Nat} (ha : a < Config.memorySize) (v : Byte) :
    Memory.wf (Memory.write m a v) := by
  unfold Memory.write
  split
  · exact ⟨h.1.filter _, fun p hp => h.2 p (List.mem_filter.1 hp).1⟩
  · rename_i hv
    refine ⟨Memory.insert_rising h.1 a v, fun p hp => ?_⟩
    rcases Memory.mem_insert hp with rfl | hp
    · exact ⟨ha, hv⟩
    · exact h.2 p hp

/-- Writing bytes inside the address space keeps the canonical form. -/
theorem Memory.wf_writeBytes {m : Memory} (h : Memory.wf m) {a : Nat} (bytes : List Byte)
    (ha : a + bytes.length ≤ Config.memorySize) : Memory.wf (Memory.writeBytes m a bytes) := by
  induction bytes generalizing m a with
  | nil => exact h
  | cons v rest ih =>
    simp only [List.length_cons] at ha
    exact ih (Memory.wf_write h (by omega) v) (by omega)

theorem wf_writeWord {s : State} (h : Memory.wf s.mem) {a : Word} (ha : inRange a 2) (v : Word) :
    Memory.wf (writeWord s a v).mem := by
  simp only [inRange, decide_eq_true_eq] at ha
  exact Memory.wf_write (Memory.wf_write h (by omega) _) (by omega) _

theorem wf_partialWrite {s : State} (h : Memory.wf s.mem) (a v : Word) : Memory.wf (partialWrite s a v).mem :=
  Memory.wf_write h a.isLt _

end Sys2Proof.Machine
end

