-- ==== Sys2Proof/Laws/Ops.lean ====
section
/-! SUPPORT. What each shared operation can answer: one lemma per operation, cited instead of unfolding it. -/

namespace Sys2Proof.Machine

@[simp] theorem andThen_next (s : State) (k : State → Result) : andThen (.next s) k = k s := rfl
@[simp] theorem andThen_raiseFault (r : FaultReason) (s : State) (k : State → Result) :
    andThen (raiseFault r s) k = raiseFault r s := rfl

theorem andThen_eq_next {r : Result} {k : State → Result} {t : State} (h : andThen r k = .next t) :
    ∃ u, r = .next u ∧ k u = .next t := by
  cases r with
  | next u => exact ⟨u, rfl, h⟩
  | fault f => cases h
  | refused f => cases h

theorem inRange_two (a : Word) : inRange a 2 = true ↔ a ≠ 0xFFFF := by
  have ha := a.isLt
  have h : (0xFFFF : Word).toNat = 65535 := rfl
  unfold inRange Config.memorySize
  rw [decide_eq_true_iff, ne_eq, ← BitVec.toNat_inj, h]
  omega

theorem inRange_four (a : Word) : inRange a 4 = true ↔ a.toNat ≤ 0xFFFC := by
  unfold inRange Config.memorySize
  rw [decide_eq_true_iff]
  omega

theorem append_bytes (p q r t : Byte) : (p ++ (q ++ (r ++ t)) : Word32) = ((p ++ q : Word) ++ (r ++ t : Word) : Word32) := by
  apply BitVec.eq_of_getLsbD_eq
  intro k hk
  simp only [BitVec.getLsbD_append]
  interval_cases k <;> simp

/-- The mixed-width view: a 32-bit value is two 16-bit values, the higher at `a + 2` (R57). -/
theorem word32At_eq (m : Memory) (a : Nat) : word32At m a = (wordAt m (a + 2) ++ wordAt m a : Word32) :=
  append_bytes (Memory.read m (a + 3)) (Memory.read m (a + 2)) (Memory.read m (a + 1)) (Memory.read m a)

/-- The 16-bit value at an address after an in-range 16-bit write there. -/
theorem wordAt_writeWord (s : State) (a v : Word) : wordAt (writeWord s a v).mem a.toNat = v := by
  have h : ∀ k, Memory.read (writeWord s a v).mem k = readByte (writeWord s a v) k := fun _ => rfl
  unfold wordAt
  rw [h, h, readByte_writeWord, readByte_writeWord]
  simp [highByte_append_lowByte]

/-- The 16-bit value two bytes above an in-range 16-bit write is as before. -/
theorem wordAt_writeWord_above (s : State) (a v : Word) :
    wordAt (writeWord s a v).mem (a.toNat + 2) = wordAt s.mem (a.toNat + 2) := by
  have h : ∀ t : State, ∀ k, Memory.read t.mem k = readByte t k := fun _ _ => rfl
  unfold wordAt
  have h3 : a.toNat + 2 + 1 ≠ a.toNat := by omega
  rw [h, h, h, h, readByte_writeWord, readByte_writeWord]
  simp [h3]

theorem read32_fetched {s : State} {a : Word} (h : a.toNat ≤ 0xFFFC) :
    read32 s a = some (word32At s.mem a.toNat) := if_pos ((inRange_four a).2 h)

theorem read32_unfetched {s : State} {a : Word} (h : ¬ a.toNat ≤ 0xFFFC) : read32 s a = none :=
  if_neg (fun hi => h ((inRange_four a).1 hi))

/-- A raise answers a fault and nothing else. -/
theorem raiseFault_ne_next (r : FaultReason) (s t : State) : raiseFault r s ≠ .next t := by
  intro h
  cases h

/-- What a 16-bit write answers: the two bytes written, or at 0xFFFF the fault with the partial write behind it (R56). -/
theorem write16_cases (s : State) (a v : Word) :
    (a ≠ 0xFFFF ∧ write16 s a v = .next (writeWord s a v)) ∨
      (a = 0xFFFF ∧ write16 s a v = raiseFault (.memoryOutOfRange a 2) (partialWrite s a v)) := by
  unfold write16
  by_cases h : a = 0xFFFF
  · right
    refine ⟨h, if_neg ?_⟩
    rw [inRange_two]
    simpa using h
  · left
    exact ⟨h, if_pos ((inRange_two a).2 h)⟩

/-- What a whole-byte index answers: the register it names, or the fault (R28). -/
theorem withByteIndex_cases (r : Byte) (s : State) (k : RegIdx → Result) :
    (∃ h : r.toNat < 16, withByteIndex r s k = k ⟨r.toNat, h⟩) ∨
      (16 ≤ r.toNat ∧ withByteIndex r s k = raiseFault (.registerIndexOutOfRange r) s) := by
  unfold withByteIndex byteIndex
  by_cases h : r.toNat < 16
  · exact .inl ⟨h, by rw [dif_pos h]⟩
  · exact .inr ⟨by omega, by rw [dif_neg h]⟩

/-- What a 16-bit read answers: the value at the address, or at 0xFFFF the fault (R55). -/
theorem withRead16_cases (a : Word) (s : State) (k : Word → Result) :
    (a ≠ 0xFFFF ∧ withRead16 a s k = k (wordAt s.mem a.toNat)) ∨
      (a = 0xFFFF ∧ withRead16 a s k = raiseFault (.memoryOutOfRange a 2) s) := by
  unfold withRead16 read16
  by_cases h : a = 0xFFFF
  · refine .inr ⟨h, ?_⟩
    rw [if_neg]
    rw [inRange_two]
    simpa using h
  · refine .inl ⟨h, ?_⟩
    rw [if_pos ((inRange_two a).2 h)]

/-- What a partial write leaves at 0xFFFF: the old byte or the value's low byte, whichever the draw is (R56). -/
theorem readByte_partialWrite (s : State) (a v : Word) (b : Nat) :
    readByte (partialWrite s a v) b = readByte s b ∨ (b = a.toNat ∧ readByte (partialWrite s a v) b = lowByte v) := by
  have h : readByte (partialWrite s a v) b
      = readByte (writeByte s a.toNat (if Config.partialWriteStores s.draws then lowByte v else readByte s a.toNat)) b := rfl
  rw [h, readByte_writeByte]
  by_cases hb : b = a.toNat
  · subst hb
    cases Config.partialWriteStores s.draws <;> simp
  · simp [hb]

/-- A fault marks the state it is raised in and leaves the rest of it (R201). -/
theorem faultedState_leftBy (r : FaultReason) (s : State) : LeftBy r s (faultedState r s) :=
  ⟨⟨rfl, rfl, rfl, rfl, rfl, rfl, faultedState_cycles r s⟩, fun _ => rfl⟩

end Sys2Proof.Machine
end

