-- ==== Sys2Proof/Laws/Exec.lean ====
section
/-! SUPPORT. What each handler that can raise answers, once for the case it goes on and once for each fault. The other
handlers answer their next state outright. -/

namespace Sys2Proof.Machine

/-! ### Control transfer -/

theorem exec_call {s : State} (h : s.sp ≠ 0xFFFF) (target : Word) :
    exec (.call target) s = .next (setPc (setSp (writeWord s s.sp s.pc) (s.sp + 2)) target) := by
  simp only [exec, execCall, getSp_eq, getPc_eq]
  rcases write16_cases s s.sp s.pc with ⟨-, hw⟩ | ⟨he, -⟩
  · simp [hw]
  · exact absurd he h

theorem exec_call_fault {s : State} (h : s.sp = 0xFFFF) (target : Word) :
    exec (.call target) s = raiseFault (.memoryOutOfRange 0xFFFF 2) (partialWrite s 0xFFFF s.pc) := by
  simp only [exec, execCall, getSp_eq, getPc_eq, h]
  rcases write16_cases s 0xFFFF s.pc with ⟨hn, -⟩ | ⟨-, hw⟩
  · exact absurd rfl hn
  · rw [hw]
    rfl

/-- The decremented `SP` is 0xFFFF exactly when `SP` was 0x0001 (R127). -/
theorem sp_sub_two (a : Word) : a - 2 = 0xFFFF ↔ a = 0x0001 := by
  constructor
  · intro h
    calc a = (a - 2) + 2 := (BitVec.sub_add_cancel a 2).symm
      _ = 0x0001 := by rw [h]; rfl
  · rintro rfl
    rfl

theorem exec_ret {s : State} (h : s.sp ≠ 0x0001) :
    exec .ret s = .next (setPc (setSp s (s.sp - 2)) (wordAt s.mem (s.sp - 2).toNat)) := by
  simp only [exec, execRet, getSp_eq, decrementSp_eq]
  rcases withRead16_cases (s.sp - 2) (setSp s (s.sp - 2)) (fun v => .next (setPc (setSp s (s.sp - 2)) v)) with
    ⟨-, hw⟩ | ⟨he, -⟩
  · exact hw
  · exact absurd ((sp_sub_two _).1 he) h

theorem exec_ret_fault {s : State} (h : s.sp = 0x0001) :
    exec .ret s = raiseFault (.memoryOutOfRange 0xFFFF 2) (setSp s 0xFFFF) := by
  have hsp : s.sp - 2 = 0xFFFF := (sp_sub_two _).2 h
  simp only [exec, execRet, getSp_eq, decrementSp_eq, setSp_sp, hsp]
  rcases withRead16_cases 0xFFFF (setSp s 0xFFFF) (fun v => .next (setPc (setSp s 0xFFFF) v)) with ⟨hn, -⟩ | ⟨-, hw⟩
  · exact absurd rfl hn
  · exact hw

/-! ### Whole-byte indices -/

theorem withByteIndex_ok {r : Byte} (h : r.toNat < 16) (s : State) (k : RegIdx → Result) :
    withByteIndex r s k = k ⟨r.toNat, h⟩ := by
  rcases withByteIndex_cases r s k with ⟨_, hw⟩ | ⟨hr, -⟩
  · exact hw
  · omega

theorem withByteIndex_fault {r : Byte} (h : 16 ≤ r.toNat) (s : State) (k : RegIdx → Result) :
    withByteIndex r s k = raiseFault (.registerIndexOutOfRange r) s := by
  rcases withByteIndex_cases r s k with ⟨hr, -⟩ | ⟨-, hw⟩
  · omega
  · exact hw

theorem exec_ldi {r : Byte} (h : r.toNat < 16) (imm : Word) (s : State) :
    exec (.ldi r imm) s = .next (writeGp s ⟨r.toNat, h⟩ imm) := withByteIndex_ok h s _

theorem exec_ldi_fault {r : Byte} (h : 16 ≤ r.toNat) (imm : Word) (s : State) :
    exec (.ldi r imm) s = raiseFault (.registerIndexOutOfRange r) s := withByteIndex_fault h s _

theorem exec_tsti {r : Byte} (h : r.toNat < 16) (imm : Word) (s : State) :
    exec (.tsti r imm) s = .next (setZN s (readGp s ⟨r.toNat, h⟩ &&& imm)) := withByteIndex_ok h s _

theorem exec_tsti_fault {r : Byte} (h : 16 ≤ r.toNat) (imm : Word) (s : State) :
    exec (.tsti r imm) s = raiseFault (.registerIndexOutOfRange r) s := withByteIndex_fault h s _

theorem exec_ldm {r : Byte} (h : r.toNat < 16) {addr : Word} (ha : addr ≠ 0xFFFF) (s : State) :
    exec (.ldm r addr) s = .next (writeGp s ⟨r.toNat, h⟩ (wordAt s.mem addr.toNat)) := by
  refine (withByteIndex_ok h s _).trans ?_
  rcases withRead16_cases addr s (fun v => .next (writeGp s ⟨r.toNat, h⟩ v)) with ⟨-, hw⟩ | ⟨he, -⟩
  · exact hw
  · exact absurd he ha

theorem exec_ldm_fault {r : Byte} (h : r.toNat < 16) (s : State) :
    exec (.ldm r 0xFFFF) s = raiseFault (.memoryOutOfRange 0xFFFF 2) s := by
  refine (withByteIndex_ok h s _).trans ?_
  rcases withRead16_cases 0xFFFF s (fun v => .next (writeGp s ⟨r.toNat, h⟩ v)) with ⟨hn, -⟩ | ⟨-, hw⟩
  · exact absurd rfl hn
  · exact hw

theorem exec_ldm_index_fault {r : Byte} (h : 16 ≤ r.toNat) (addr : Word) (s : State) :
    exec (.ldm r addr) s = raiseFault (.registerIndexOutOfRange r) s := withByteIndex_fault h s _

theorem exec_stm {r : Byte} (h : r.toNat < 16) {addr : Word} (ha : addr ≠ 0xFFFF) (s : State) :
    exec (.stm r addr) s = .next (writeWord s addr (readGp s ⟨r.toNat, h⟩)) := by
  refine (withByteIndex_ok h s _).trans ?_
  rcases write16_cases s addr (readGp s ⟨r.toNat, h⟩) with ⟨-, hw⟩ | ⟨he, -⟩
  · exact hw
  · exact absurd he ha

theorem exec_stm_fault {r : Byte} (h : r.toNat < 16) (s : State) :
    exec (.stm r 0xFFFF) s =
      raiseFault (.memoryOutOfRange 0xFFFF 2) (partialWrite s 0xFFFF (readGp s ⟨r.toNat, h⟩)) := by
  refine (withByteIndex_ok h s _).trans ?_
  rcases write16_cases s 0xFFFF (readGp s ⟨r.toNat, h⟩) with ⟨hn, -⟩ | ⟨-, hw⟩
  · exact absurd rfl hn
  · exact hw

theorem exec_stm_index_fault {r : Byte} (h : 16 ≤ r.toNat) (addr : Word) (s : State) :
    exec (.stm r addr) s = raiseFault (.registerIndexOutOfRange r) s := withByteIndex_fault h s _

/-! ### Division -/

theorem exec_div2 {s : State} {y : RegIdx} (h : readGp s y ≠ 0) (x z : RegIdx) :
    exec (.div2 x y z) s =
      .next (setZNC (writeGp s z (divRes (readGp s x) (readGp s y))) (divRes (readGp s x) (readGp s y))
        (divCarry (readGp s x) (readGp s y))) := by
  have h' : (readGp s y).toNat ≠ 0 := fun e => h (BitVec.eq_of_toNat_eq e)
  simp only [exec, execDiv2, mulDivInto, if_neg h']

theorem exec_div2_fault {s : State} {y : RegIdx} (h : readGp s y = 0) (x z : RegIdx) :
    exec (.div2 x y z) s = raiseFault .divideByZero s := by
  simp [exec, execDiv2, h]

end Sys2Proof.Machine
end

