-- ==== Sys2Proof/Laws/HostPort.lean ====
section
/-! SUPPORT. What the host's moves can answer: one lemma per move for each answer. -/

namespace Sys2Proof.Machine

/-- A move that changes the machine was made while the run was on. -/
theorem whileRunning_ok {s t : State} {answer : Except MoveReject State} (h : whileRunning s answer = .ok t) :
    s.run = .running ∧ answer = .ok t := by
  unfold whileRunning at h
  cases hr : s.run with
  | running => rw [hr] at h; exact ⟨rfl, h⟩
  | faulted reason => rw [hr] at h; cases h

theorem whileRunning_running {s : State} (hr : s.run = .running) (answer : Except MoveReject State) :
    whileRunning s answer = answer := by
  unfold whileRunning
  rw [hr]

/-- A machine whose run is over takes no move (R212). -/
theorem whileRunning_faulted {s : State} {reason : FaultReason} (hr : s.run = .faulted reason)
    (answer : Except MoveReject State) : whileRunning s answer = .error (.runIsOver reason) := by
  unfold whileRunning
  rw [hr]

/-- A fill that answers a state was in range and wrote memory alone. -/
theorem fillMemory_ok {bytes : List Byte} {start : Word} {s t : State} (h : fillMemory bytes start s = .ok t) :
    s.run = .running ∧ start.toNat + bytes.length ≤ Config.memorySize ∧
      t = { s with mem := Memory.writeBytes s.mem start.toNat bytes } := by
  obtain ⟨hr, ha⟩ := whileRunning_ok h
  split at ha
  · cases ha
  · cases ha
    exact ⟨hr, by omega, rfl⟩

/-- A hand-over that answers a state wrote `PC` alone. -/
theorem driverSetPc_ok {start : Word} {s t : State} (h : driverSetPc start s = .ok t) :
    s.run = .running ∧ t = setPc s start := by
  obtain ⟨hr, ha⟩ := whileRunning_ok h
  cases ha
  exact ⟨hr, rfl⟩

/-- A fill keeps the canonical form of memory. -/
theorem wf_fillMemory {bytes : List Byte} {start : Word} {s t : State} (hs : Memory.wf s.mem)
    (h : fillMemory bytes start s = .ok t) : Memory.wf t.mem := by
  obtain ⟨-, hb, rfl⟩ := fillMemory_ok h
  exact Memory.wf_writeBytes hs _ hb

end Sys2Proof.Machine
end

