-- ==== Sys2Proof/Laws/PerInstr.lean ====
section
/-! SUPPORT. Statements made per instruction: the family EncodesOpcode, the opcode byte of every instruction's encoding. -/

namespace Sys2Proof.Laws.EncodesOpcode

/-- The first byte of an instruction's unit is the opcode map's byte of its mnemonic (R80, R86). -/
def Statement (i : Instr) : Prop := ∀ m : OpcodeMap, (encodeRaw m i).opcode = m i.mnemonic

theorem nop : Statement .nop := fun _ => rfl
theorem jmp (target : Word) : Statement (.jmp target) := fun _ => rfl
theorem j (cond : Byte) (target : Word) : Statement (.j cond target) := fun _ => rfl
theorem call (target : Word) : Statement (.call target) := fun _ => rfl
theorem ret : Statement .ret := fun _ => rfl
theorem ldi (r : Byte) (imm : Word) : Statement (.ldi r imm) := fun _ => rfl
theorem ldm (r : Byte) (addr : Word) : Statement (.ldm r addr) := fun _ => rfl
theorem mov (x y : RegIdx) : Statement (.mov x y) := fun _ => rfl
theorem stm (r : Byte) (addr : Word) : Statement (.stm r addr) := fun _ => rfl
theorem addi (x : RegIdx) (imm : Word) : Statement (.addi x imm) := fun _ => rfl
theorem add (x y : RegIdx) : Statement (.add x y) := fun _ => rfl
theorem sub (x y : RegIdx) : Statement (.sub x y) := fun _ => rfl
theorem cmpi (x : RegIdx) (imm : Word) : Statement (.cmpi x imm) := fun _ => rfl
theorem tsti (r : Byte) (imm : Word) : Statement (.tsti r imm) := fun _ => rfl
theorem or (x y : RegIdx) : Statement (.or x y) := fun _ => rfl
theorem xor (x y : RegIdx) : Statement (.xor x y) := fun _ => rfl
theorem mul2 (x y z : RegIdx) : Statement (.mul2 x y z) := fun _ => rfl
theorem div2 (x y z : RegIdx) : Statement (.div2 x y z) := fun _ => rfl

end Sys2Proof.Laws.EncodesOpcode
end

