-- ==== Sys2Proof/Laws/Step.lean ====
section
/-! SUPPORT. What a step can do, said once: a step that goes on ran a decoded instruction to its end; a step that faults
raised in the fetch, in the dispatch or in a handler. -/

namespace Sys2Proof.Machine

/-- Splitting the fetched word gives the four bytes at the address (R80, R81). -/
theorem splitWord_word32At (m : Memory) (a : Nat) :
    splitWord (word32At m a) =
      ⟨Memory.read m a, Memory.read m (a + 1), Memory.read m (a + 2), Memory.read m (a + 3)⟩ :=
  splitWord_joinWord ⟨Memory.read m a, Memory.read m (a + 1), Memory.read m (a + 2), Memory.read m (a + 3)⟩

/-- The decoder rejects a word for its opcode alone. -/
theorem decodeWith_cases (m : OpcodeMap) (w : Word32) :
    (∃ k, m k = (splitWord w).opcode ∧ decodeWith m w = .ok ((splitWord w).operands k)) ∨
      ((∀ k, m k ≠ (splitWord w).opcode) ∧ decodeWith m w = .error (.unimplementedOpcode (splitWord w).opcode)) := by
  unfold decodeWith decodeRaw
  cases h : dispatchEntry m (splitWord w).opcode with
  | some k => exact .inl ⟨k, dispatchEntry_some h, rfl⟩
  | none => exact .inr ⟨dispatchEntry_none.1 h, rfl⟩

/-- A decoded word runs its instruction's handler. -/
theorem dispatchWord_ok {m : OpcodeMap} {w : Word32} {i : Instr} (h : decodeWith m w = .ok i) (s : State) :
    dispatchWord m w s = exec i s := by
  unfold dispatchWord
  rw [h]

/-- A rejected word raises (R105). -/
theorem dispatchWord_error {m : OpcodeMap} {w : Word32} {e : DecodeReject} (h : decodeWith m w = .error e) (s : State) :
    dispatchWord m w s = raiseFault (.unimplementedOpcode (splitWord w).opcode) s := by
  unfold dispatchWord
  rw [h]

/-- Counting the cycle adds no fault of its own. -/
theorem countCycle_eq_fault {n : Nat} {r : Result} {f : Fault} (h : countCycle n r = .fault f) : r = .fault f := by
  cases r <;> cases h
  rfl

/-- Counting the cycle writes `CYCLES` alone. -/
theorem countCycle_eq_next {n : Nat} {r : Result} {t : State} (h : countCycle n r = .next t) :
    ∃ u, r = .next u ∧ t = { u with cycles := n + 1 } := by
  cases r <;> cases h
  exact ⟨_, rfl, rfl⟩

@[simp] theorem runStepsWith_zero (m : OpcodeMap) (s : State) : runStepsWith m 0 s = .next s := rfl
theorem runStepsWith_succ (m : OpcodeMap) (k : Nat) (s : State) :
    runStepsWith m (k + 1) s = andThen (executeCycleWith m s) (runStepsWith m k) := rfl
@[simp] theorem runSteps_zero (s : State) : runSteps 0 s = .next s := rfl
theorem runSteps_succ (k : Nat) (s : State) : runSteps (k + 1) s = andThen (step s) (runSteps k) := rfl

/-- `runSteps` is the host's run of this machine. -/
theorem runSteps_eq_run (k : Nat) (s : State) : Host.Core.run core k s = runSteps k s := by
  induction k generalizing s with
  | zero => rfl
  | succ k ih =>
    simp only [Host.Core.run, runSteps_succ]
    have hs : core.step s = step s := rfl
    rw [hs]
    cases step s with
    | next u => exact ih u
    | fault f => rfl
    | refused f => rfl

/-- The step of a running machine whose fetch is in range. -/
theorem executeCycleWith_fetched {m : OpcodeMap} {s : State} (hr : s.run = .running) (hp : s.pc.toNat ≤ 0xFFFC) :
    executeCycleWith m s =
      countCycle s.cycles (dispatchWord m (word32At s.mem s.pc.toNat) (setPc s (s.pc + 4))) := by
  unfold executeCycleWith
  simp only [hr, getPc_eq, incrementPc_eq, read32_fetched hp]

/-- The step of a running machine whose fetch is past the address space. -/
theorem executeCycleWith_unfetched {m : OpcodeMap} {s : State} (hr : s.run = .running) (hp : ¬ s.pc.toNat ≤ 0xFFFC) :
    executeCycleWith m s = raiseFault (.memoryOutOfRange s.pc 4) s := by
  unfold executeCycleWith
  simp only [hr, getPc_eq, read32_unfetched hp]

/-- What a step that goes on has done. -/
theorem executeCycleWith_next {m : OpcodeMap} {s t : State} (h : executeCycleWith m s = .next t) :
    s.run = .running ∧ s.pc.toNat ≤ 0xFFFC ∧ ∃ i u, decodeWith m (word32At s.mem s.pc.toNat) = .ok i ∧
      exec i (setPc s (s.pc + 4)) = .next u ∧ t = { u with cycles := s.cycles + 1 } := by
  cases hr : s.run with
  | faulted reason => simp [executeCycleWith, hr] at h
  | running =>
    by_cases hp : s.pc.toNat ≤ 0xFFFC
    · rw [executeCycleWith_fetched hr hp] at h
      obtain ⟨u, hu, ht⟩ := countCycle_eq_next h
      refine ⟨rfl, hp, ?_⟩
      rcases decodeWith_cases m (word32At s.mem s.pc.toNat) with ⟨k, -, hd⟩ | ⟨-, hd⟩
      · rw [dispatchWord_ok hd] at hu
        exact ⟨_, u, hd, hu, ht⟩
      · rw [dispatchWord_error hd] at hu
        exact absurd hu (raiseFault_ne_next _ _ _)
    · rw [executeCycleWith_unfetched hr hp] at h
      exact absurd h (raiseFault_ne_next _ _ _)

/-- Where a fault of a step comes from: the fetch, the dispatch, or the handler. -/
theorem executeCycleWith_raised {m : OpcodeMap} {s t : State} {reason : FaultReason}
    (h : executeCycleWith m s = .fault (.raised reason t)) :
    s.run = .running ∧
      ((reason = .memoryOutOfRange s.pc 4 ∧ t = faultedState reason s) ∨
        (∃ op, reason = .unimplementedOpcode op ∧ t = faultedState reason (setPc s (s.pc + 4))) ∨
        ∃ i, exec i (setPc s (s.pc + 4)) = .fault (.raised reason t)) := by
  cases hr : s.run with
  | faulted reason => simp [executeCycleWith, hr] at h
  | running =>
    refine ⟨rfl, ?_⟩
    by_cases hp : s.pc.toNat ≤ 0xFFFC
    · rw [executeCycleWith_fetched hr hp] at h
      have hf := countCycle_eq_fault h
      rcases decodeWith_cases m (word32At s.mem s.pc.toNat) with ⟨k, -, hd⟩ | ⟨-, hd⟩
      · rw [dispatchWord_ok hd] at hf
        exact .inr (.inr ⟨_, hf⟩)
      · rw [dispatchWord_error hd] at hf
        cases hf
        exact .inr (.inl ⟨_, rfl, rfl⟩)
    · rw [executeCycleWith_unfetched hr hp] at h
      cases h
      exact .inl ⟨rfl, rfl⟩

end Sys2Proof.Machine
end

