-- ==== Sys2Proof/Tests/Slice0.lean ====
section
/-! SUPPORT. The model's own tests. Every expected value is taken from spec/: the patterns of 30_encoding.md R85 and R86, the
worked examples and vectors of 95_test_vectors.md (named in the comments), or the rule named. Then the witnesses: for every
statement with hypotheses, concrete values that meet them. -/

namespace Sys2Proof.Tests

open Sys2Proof Sys2Proof.Machine

/-! ### Helpers -/

/-- The reset machine with some registers, `PC`, `SP` and memory bytes set. -/
def machineWith (regs : List (RegIdx × Word)) (bytes : List (Nat × Byte)) (pc : Word := 0) (sp : Word := 0xFDF0) : State :=
  let s := regs.foldl (fun s p => writeGp s p.1 p.2) State.reset
  let s := bytes.foldl (fun s p => writeByte s p.1 p.2) s
  { s with pc := pc, sp := sp }

/-- What `f` shows of the next state, if there is one. -/
def after {α : Type} (r : Result) (f : State → α) : Option α :=
  match r with
  | .next t => some (f t)
  | _ => none

/-- What `f` shows of the reason of a raised fault and the state it leaves. -/
def raised {α : Type} (r : Result) (f : FaultReason → State → α) : Option α :=
  match r with
  | .fault (.raised reason t) => some (f reason t)
  | _ => none

/-- Z, N, O, C. -/
def znoc (s : State) : Bool × Bool × Bool × Bool := (getFlag s .z, getFlag s .n, getFlag s .o, getFlag s .c)

/-! ### Well-formedness: an ill-formed term for each check -/

theorem test_wellFormed_refuses_ldi : Instr.wellFormed (.ldi 0x10 0x1234) = false := by decide
theorem test_wellFormed_refuses_ldm : Instr.wellFormed (.ldm 0x10 0x0300) = false := by decide
theorem test_wellFormed_refuses_stm : Instr.wellFormed (.stm 0xFF 0xFFFF) = false := by decide
theorem test_wellFormed_refuses_tsti : Instr.wellFormed (.tsti 0x21 0x0001) = false := by decide
theorem test_wellFormed_accepts_last_register : Instr.wellFormed (.ldi 0x0F 0xFFFF) = true := by decide

/-! ### Decoding: one word per constructor, opcode bytes of R86, fields placed as in R85 -/

/-- `------------------------00000000`. -/
theorem test_decode_nop : decode 0b00000000000000000000000000000000 = .ok .nop := by decide
/-- `iiiiiiiiiiiiiiii--------00010000`, imm16 0xABCD. -/
theorem test_decode_jmp : decode 0b10101011110011010000000000010000 = .ok (.jmp 0xABCD) := by decide
/-- `iiiiiiiiiiiiiiiicccccccc00010010`, imm16 0x0200, c 0xF0. -/
theorem test_decode_j : decode 0b00000010000000001111000000010010 = .ok (.j 0xF0 0x0200) := by decide
/-- `iiiiiiiiiiiiiiii--------00010100`, imm16 0x0040. -/
theorem test_decode_call : decode 0b00000000010000000000000000010100 = .ok (.call 0x0040) := by decide
/-- `------------------------00010101`. -/
theorem test_decode_ret : decode 0b00000000000000000000000000010101 = .ok .ret := by decide
/-- `iiiiiiiiiiiiiiiirrrrrrrr00100000`, imm16 0x8001, r 0x03. -/
theorem test_decode_ldi : decode 0b10000000000000010000001100100000 = .ok (.ldi 0x03 0x8001) := by decide
/-- `iiiiiiiiiiiiiiiirrrrrrrr00100010`, imm16 0x0300, r 0x01. -/
theorem test_decode_ldm : decode 0b00000011000000000000000100100010 = .ok (.ldm 0x01 0x0300) := by decide
/-- `----------------yyyyxxxx00100100`, y 5, x 4. -/
theorem test_decode_mov : decode 0b00000000000000000101010000100100 = .ok (.mov 4 5) := by decide
/-- `iiiiiiiiiiiiiiiirrrrrrrr00110000`, imm16 0x0400, r 0x02. -/
theorem test_decode_stm : decode 0b00000100000000000000001000110000 = .ok (.stm 0x02 0x0400) := by decide
/-- `iiiiiiiiiiiiiiii----xxxx01000000`, imm16 0xFFFF, param0 0x13: x 3. -/
theorem test_decode_addi : decode 0b11111111111111110001001101000000 = .ok (.addi 3 0xFFFF) := by decide
/-- `----------------yyyyxxxx01000001`, y 2, x 1. -/
theorem test_decode_add : decode 0b00000000000000000010000101000001 = .ok (.add 1 2) := by decide
/-- `----------------yyyyxxxx01010001`, y 4, x 2. -/
theorem test_decode_sub : decode 0b00000000000000000100001001010001 = .ok (.sub 2 4) := by decide
/-- `iiiiiiiiiiiiiiii----xxxx01010011`, imm16 0x0005, x 0. -/
theorem test_decode_cmpi : decode 0b00000000000001010000000001010011 = .ok (.cmpi 0 0x0005) := by decide
/-- `iiiiiiiiiiiiiiiirrrrrrrr01100011`, imm16 0x8000, r 0x21: the whole byte. -/
theorem test_decode_tsti : decode 0b10000000000000000010000101100011 = .ok (.tsti 0x21 0x8000) := by decide
/-- `----------------yyyyxxxx01110001`, y 2, x 1. -/
theorem test_decode_or : decode 0b00000000000000000010000101110001 = .ok (.or 1 2) := by decide
/-- `----------------yyyyxxxx10000001`, y 7, x 7. -/
theorem test_decode_xor : decode 0b00000000000000000111011110000001 = .ok (.xor 7 7) := by decide
/-- `------------zzzzyyyyxxxx10010010`, z 6, y 4, x 2; param1[7:4] and param2 not read. -/
theorem test_decode_mul2 : decode 0b11111111111101100100001010010010 = .ok (.mul2 2 4 6) := by decide
/-- `------------zzzzyyyyxxxx10100010`, z 5, y 4, x 3. -/
theorem test_decode_div2 : decode 0b00000000000001010100001110100010 = .ok (.div2 3 4 5) := by decide

/-- S11. -/
theorem test_decode_rejects_unimplemented : decode 0x00000001 = .error (.unimplementedOpcode 0x01) := by decide
/-- R82: fewer or more than three parameter bytes. -/
theorem test_decodeBytes_rejects_other_lengths :
    decodeBytesWith defaultOpcodeMap [] = .error (.malformed .invalidArgument) ∧
    decodeBytesWith defaultOpcodeMap [0x00, 0, 0] = .error (.malformed .invalidArgument) ∧
    decodeBytesWith defaultOpcodeMap [0x00, 0, 0, 0, 0] = .error (.malformed .invalidArgument) := by decide
/-- The bytes of P1, in memory order: `A2 43 05 00` is `DIV2 R3, R4, R5`. -/
theorem test_encodeBytes_div2 : encodeBytesWith defaultOpcodeMap (.div2 3 4 5) = [0xA2, 0x43, 0x05, 0x00] := by decide
/-- R90: `ADD R1, R2` assembles to the bytes `41 21 00 00`. -/
theorem test_encodeBytes_add : encodeBytesWith defaultOpcodeMap (.add 1 2) = [0x41, 0x21, 0x00, 0x00] := by decide
/-! ### The host's two questions -/

theorem test_decodeTableWord_stm : decodeTableWord 32 0x04000230 = some (.stm 0x02 0x0400) := by decide
theorem test_decodeTableWord_rejects : decodeTableWord 8 0xE0 = none := by decide
/-- F1 with the instruction placed where the reset machine fetches. -/
theorem test_withFetchWord_ldi :
    after (step (State.reset.withFetchWord 32 0x12340120)) (fun t => (readGp t 1, t.pc, t.cycles)) =
      some (0x1234, 0x0004, 1) := by decide
/-- A `PC` that no fetch can read is moved to 0 for the placed instruction. -/
theorem test_withFetchWord_moves_pc :
    after (step ((setPc State.reset 0xFFFE).withFetchWord 32 0x02000010)) (fun t => t.pc) = some 0x0200 := by decide

/-! ### The step -/

/-- F2: a fetch at 0xFFFC succeeds and `PC` wraps. -/
theorem test_step_wraps : after (step (machineWith [] [] 0xFFFC)) (fun t => (t.pc, t.run)) = some (0x0000, .running) := by
  decide
/-- F3 and P5: a fetch at 0xFFFE faults, `PC` unchanged. -/
theorem test_step_fetch_fault :
    raised (step (machineWith [] [] 0xFFFE)) (fun r t => (r, t.pc, t.run)) =
      some (.memoryOutOfRange 0xFFFE 4, 0xFFFE, .faulted (.memoryOutOfRange 0xFFFE 4)) := by decide
/-- S11, F4: an unimplemented opcode faults with `PC` advanced. -/
theorem test_step_unimplemented :
    raised (step (machineWith [] [(0, 0x01)])) (fun r t => (r, t.pc)) = some (.unimplementedOpcode 0x01, 0x0004) := by
  decide
/-- F5: a misaligned fetch is legal. -/
theorem test_step_misaligned :
    after (step (machineWith [] [(1, 0x10), (4, 0x02)] 0x0001)) (fun t => t.pc) = some 0x0200 := by decide
/-- F8: the byte JMP does not read does not matter. -/
theorem test_step_unread_byte :
    after (step (machineWith [] [(0, 0x10), (1, 0xFF), (3, 0x02)])) (fun t => t.pc) = some 0x0200 := by decide
/-- F7: a faulted machine makes no step. -/
theorem test_step_after_fault :
    step { State.reset with run := .faulted .divideByZero } =
      .fault (.runIsOver .divideByZero { State.reset with run := .faulted .divideByZero }) := rfl
/-- S2, S3: the register-file steps wrap. -/
theorem test_register_steps_wrap :
    (incrementPc (setPc State.reset 0xFFFE)).pc = 0x0002 ∧ (decrementSp (setSp State.reset 0x0000)).sp = 0xFFFE ∧
      (incrementSp (setSp State.reset 0xFFFE)).sp = 0x0000 := by decide

/-! ### Control transfer -/

/-- T7: a push at 0xFFFE wraps `SP`. -/
theorem test_call_wraps_sp :
    after (exec (.call 0x0040) (machineWith [] [] 0x0004 0xFFFE))
      (fun t => (readByte t 0xFFFE, readByte t 0xFFFF, t.sp, t.pc)) = some (0x04, 0x00, 0x0000, 0x0040) := by decide
/-- S8: the source's CALL vector. -/
theorem test_call_source_vector :
    after (exec (.call 0xABCD) (machineWith [] [] 0xEEEE 0xFF00))
      (fun t => (readByte t 0xFF00, readByte t 0xFF01, t.sp, t.pc)) = some (0xEE, 0xEE, 0xFF02, 0xABCD) := by decide
/-- S8: the source's RET vector. -/
theorem test_ret_source_vector :
    after (exec .ret (machineWith [] [(0xFF00, 0xEE), (0xFF01, 0xEE)] 0xABD1 0xFF02)) (fun t => (t.sp, t.pc)) =
      some (0xFF00, 0xEEEE) := by decide
/-- T9: RET with `SP` = 0x0001. -/
theorem test_ret_fault_keeps_decrement :
    raised (exec .ret (machineWith [] [] 0x0004 0x0001)) (fun r t => (r, t.sp, t.pc)) =
      some (.memoryOutOfRange 0xFFFF 2, 0xFFFF, 0x0004) := by decide
/-- T2, T4: J tests its whole byte. -/
theorem test_j :
    after (exec (.j 0x00 0x0200) (machineWith [] [] 0x0004)) (fun t => t.pc) = some 0x0004 ∧
      after (exec (.j 0xF0 0x0200) (machineWith [] [] 0x0004)) (fun t => t.pc) = some 0x0200 := by decide

/-! ### Data movement -/

/-- M2 and P6. -/
theorem test_ldi_index_fault :
    raised (exec (.ldi 0x10 0x1234) State.reset) (fun r t => (r, t.gp == State.reset.gp)) =
      some (.registerIndexOutOfRange 0x10, true) := by decide
/-- M4. -/
theorem test_ldm_top :
    after (exec (.ldm 0x01 0xFFFE) (machineWith [] [(0xFFFE, 0x01), (0xFFFF, 0x80)])) (fun t => readGp t 1) =
      some 0x8001 := by decide
/-- M5. -/
theorem test_ldm_fault : raised (exec (.ldm 0x01 0xFFFF) State.reset) (fun r _ => r) = some (.memoryOutOfRange 0xFFFF 2) := by
  decide
/-- M6. -/
theorem test_stm :
    after (exec (.stm 0x02 0x0400) (machineWith [(2, 0xBEEF)] [])) (fun t => t.mem) =
      some [(0x0400, 0xEF), (0x0401, 0xBE)] := by decide
/-- M8: the index is checked first. -/
theorem test_stm_index_first :
    raised (exec (.stm 0xFF 0xFFFF) State.reset) (fun r _ => r) = some (.registerIndexOutOfRange 0xFF) := by decide
/-- M9. -/
theorem test_mov : after (exec (.mov 4 5) (machineWith [(5, 0x00FF)] [])) (fun t => readGp t 4) = some 0x00FF := by decide
/-- R51: storing zeros leaves memory with nothing listed. -/
theorem test_stm_zero_is_not_listed :
    after (exec (.stm 0x02 0x0400) (machineWith [] [(0x0400, 0x11)])) (fun t => t.mem) = some [] := by decide

/-! ### Logic and arithmetic -/

/-- L1. -/
theorem test_tsti :
    after (exec (.tsti 0x01 0x8000) (machineWith [(1, 0x80F0)] [])) (fun t => (znoc t, readGp t 1)) =
      some ((false, true, false, false), 0x80F0) := by decide
/-- L5. -/
theorem test_xor :
    after (exec (.xor 1 2) (machineWith [(1, 0xFF00), (2, 0x0FF0)] [])) (fun t => (readGp t 1, znoc t)) =
      some (0xF0F0, (false, true, false, false)) := by decide
/-- L8. -/
theorem test_or :
    after (exec (.or 1 2) (machineWith [(1, 0x0001), (2, 0x8000)] [])) (fun t => (readGp t 1, znoc t)) =
      some (0x8001, (false, true, false, false)) := by decide
/-- S4: the source's ADD vector. -/
theorem test_add_source_vector :
    after (exec (.add 1 2) (machineWith [(1, 0x7FFF), (2, 0x0001)] [])) (fun t => (readGp t 1, znoc t)) =
      some (0x8000, (false, true, true, false)) := by decide
/-- Section 2.4's last ADDF row: 0x8000 + 0x8000 leaves O clear (conflict C3). -/
theorem test_add_most_negative :
    after (exec (.add 1 1) (machineWith [(1, 0x8000)] [])) (fun t => (readGp t 1, znoc t)) =
      some (0x0000, (true, false, false, true)) := by decide
/-- Section 2.4, instruction level. -/
theorem test_addi :
    after (exec (.addi 2 0xFFFF) (machineWith [(2, 0x0001)] [])) (fun t => (readGp t 2, znoc t)) =
      some (0x0000, (true, false, false, true)) := by decide
/-- S5: the source's SUB vector, a = 0 and b = 1. -/
theorem test_sub_borrow :
    after (exec (.sub 1 2) (machineWith [(2, 0x0001)] [])) (fun t => (readGp t 1, znoc t)) =
      some (0xFFFF, (false, true, false, true)) := by decide
/-- Section 2.4: 1 - 2 sets O (conflict C4). -/
theorem test_sub_overflow :
    after (exec (.sub 1 2) (machineWith [(1, 0x0001), (2, 0x0002)] [])) znoc = some (false, true, true, true) := by decide
/-- Section 2.4, instruction level. -/
theorem test_cmpi :
    after (exec (.cmpi 0 0x0005) (machineWith [(0, 0x0005)] [])) (fun t => (readGp t 0, znoc t)) =
      some (0x0005, (true, false, false, false)) := by decide
/-- S6: the source's MUL2 vector. -/
theorem test_mul2_source_vector :
    after (exec (.mul2 1 2 3) (machineWith [(1, 0x2000), (2, 0x0100)] [])) (fun t => (readGp t 3, znoc t)) =
      some (0x0000, (true, false, false, true)) := by decide
/-- Section 2.6: z = x reads the factors first. -/
theorem test_mul2_into_factor :
    after (exec (.mul2 1 2 1) (machineWith [(1, 0x0003), (2, 0x0004)] [])) (fun t => (readGp t 1, znoc t)) =
      some (0x000C, (false, false, false, false)) := by decide
/-- Section 2.7: -7 / 2 = -3, remainder -1. -/
theorem test_div2_truncates :
    after (exec (.div2 3 4 5) (machineWith [(3, 0xFFF9), (4, 0x0002)] [])) (fun t => (readGp t 5, znoc t)) =
      some (0xFFFD, (false, true, false, true)) := by decide
/-- Section 2.7: -32768 / -1 wraps to 0x8000 with no remainder. -/
theorem test_div2_wraps :
    after (exec (.div2 3 4 5) (machineWith [(3, 0x8000), (4, 0xFFFF)] [])) (fun t => (readGp t 5, znoc t)) =
      some (0x8000, (false, true, false, false)) := by decide
/-- P4: the zero divisor. -/
theorem test_div2_fault :
    raised (exec (.div2 0 1 2) (machineWith [(0, 0x0064)] [])) (fun r t => (r, readGp t 0)) =
      some (.divideByZero, 0x0064) := by decide

/-! ### The host port and the graphics call -/

/-- S9: a fill at 65534 fails. -/
theorem test_fillMemory_fails : fillMemory [1, 2, 3, 4] 0xFFFE State.reset = .error (.callError .outOfRange) := rfl
/-- S9: a fill at 65532 reads back. -/
theorem test_fillMemory_reads_back :
    (fillMemory [1, 2, 3, 4] 0xFFFC State.reset).toOption.bind (fun t => read32 t 0xFFFC) = some 0x04030201 := by decide
/-- R212: a faulted machine takes no fill and no start address. -/
theorem test_faulted_takes_no_move :
    fillMemory [1] 0x0000 { State.reset with run := .faulted .divideByZero } = .error (.runIsOver .divideByZero) ∧
      driverSetPc 0x0100 { State.reset with run := .faulted .divideByZero } = .error (.runIsOver .divideByZero) := ⟨rfl, rfl⟩
/-- R30: a stored byte with every bit set shows its reserved bits as zero. -/
theorem test_readFlags_masks : readFlags { State.reset with flags := 0xFF } = 0xC6 := by decide
/-- Section 2.8. -/
theorem test_sendCommandToGpu :
    after (sendCommandToGpu .spr #v[0x00, 0x10, 0x20] State.reset) (fun t => (t.gpu.spriteW, t.gpu.spriteH)) =
        some (0x10, 0x20) ∧
      raised (sendCommandToGpu .other #v[0, 0, 0] State.reset) (fun r _ => r) = some (.unimplementedCommand .other) := by
  decide

/-! ### Witnesses: values that meet the hypotheses of each statement -/

/-- A running machine at the last fetchable address, with a word that decodes. -/
def lastFetch : State := machineWith [] [(0xFFFC, 0x10), (0xFFFF, 0x02)] 0xFFFC
/-- A running machine whose next opcode byte is unimplemented. -/
def badOpcode : State := machineWith [] [(0, 0x01)]
/-- A running machine whose fetch is past memory. -/
def badFetch : State := machineWith [] [] 0xFFFD
/-- A machine at its normal end: `JMP 0x0024` at 0x0024 (P1). -/
def atEnd : State := machineWith [] [(0x24, 0x10), (0x26, 0x24)] 0x0024

/-- Also for `DriverReadsTheFlags`. -/
theorem witness_reset_inv : State.reset.Inv := ⟨by decide, by decide⟩
theorem witness_EveryStepKeepsTheInvariant :
    State.reset.Inv ∧ (∃ t, step State.reset = .next t) ∧
      (badFetch.Inv ∧ ∃ reason t, executeCycleWith defaultOpcodeMap badFetch = .fault (.raised reason t)) ∧
      (∃ t, fillMemory [0x01] 0xFFFF State.reset = .ok t) ∧ ∃ t, driverSetPc 0x0100 State.reset = .ok t :=
  ⟨witness_reset_inv, ⟨_, rfl⟩, ⟨⟨by decide, by decide⟩, ⟨_, _, rfl⟩⟩, ⟨_, rfl⟩, ⟨_, rfl⟩⟩
theorem witness_ReachableStatesMeetTheInvariant :
    ∃ t, Reachable defaultOpcodeMap ResetDraws.zero t ∧ t.pc = 0x0100 ∧ t.cycles = 1 ∧ readByte t 0xFFFF = 0x01 :=
  ⟨_, .fill (bytes := [0x01]) (start := 0xFFFF) (.handOver (start := 0x0100) (.step .construct rfl) rfl) rfl, rfl, rfl,
    by decide⟩
theorem witness_DecodeOfEncodeIsTheInstruction : defaultOpcodeMap.Valid := defaultOpcodeMap_valid
theorem witness_DecodingReadsTheTabledFields :
    defaultOpcodeMap.Valid ∧ (0xFFF642A2 : Word32).extractLsb' 0 8 = defaultOpcodeMap .div2 :=
  ⟨defaultOpcodeMap_valid, by decide⟩
theorem witness_DecodedWordsReencodeToTheirReadBits :
    defaultOpcodeMap.Valid ∧ decodeWith defaultOpcodeMap 0xFFFF1340 = .ok (.addi 3 0xFFFF) :=
  ⟨defaultOpcodeMap_valid, by decide⟩
theorem witness_UnreadBitsDoNotMatter :
    decodeWith defaultOpcodeMap 0x02000010 = .ok (.jmp 0x0200) ∧
      (0x02000010 : Word32) &&& readMask (Instr.jmp 0x0200).mnemonic = 0x0200FF10 &&& readMask (Instr.jmp 0x0200).mnemonic :=
  by decide
theorem witness_ConstructionNeedsThreeParameters :
    [(1 : Byte), 2, 3].length = 3 ∧ [(1 : Byte), 2].length ≠ 3 ∧ [(1 : Byte), 2, 3, 4].length ≠ 3 := by decide
theorem witness_StepRunsTheDecodedInstruction :
    lastFetch.run = .running ∧ lastFetch.pc.toNat + 4 ≤ 65536 ∧
      decodeBytesWith defaultOpcodeMap [readByte lastFetch lastFetch.pc.toNat, readByte lastFetch (lastFetch.pc.toNat + 1),
        readByte lastFetch (lastFetch.pc.toNat + 2), readByte lastFetch (lastFetch.pc.toNat + 3)] = .ok (.jmp 0x0200) := by
  decide
theorem witness_UnimplementedOpcodeIsFatal :
    badOpcode.run = .running ∧ badOpcode.pc.toNat + 4 ≤ 65536 ∧
      ∀ k : Mnemonic, defaultOpcodeMap k ≠ readByte badOpcode badOpcode.pc.toNat :=
  ⟨by decide, by decide, fun k => by cases k <;> decide⟩
theorem witness_FetchPastMemoryIsFatal :
    badFetch.run = .running ∧ badFetch.pc = 0xFFFD ∧ lastFetch.run = .running ∧ lastFetch.pc = 0xFFFC ∧
      decodeBytesWith defaultOpcodeMap [readByte lastFetch 0xFFFC, readByte lastFetch 0xFFFD, readByte lastFetch 0xFFFE,
        readByte lastFetch 0xFFFF] = .ok (.jmp 0x0200) := by decide
theorem witness_FaultedMachineMakesNoStep :
    ({ State.reset with run := .faulted .divideByZero } : State).run = .faulted .divideByZero := rfl
theorem witness_CyclesCountExecutedSteps :
    (∃ t, executeCycleWith defaultOpcodeMap State.reset = .next t) ∧
      ∃ t, runStepsWith defaultOpcodeMap 2 State.reset = .next t :=
  ⟨⟨_, rfl⟩, ⟨_, rfl⟩⟩
/-- Also for `NoStepReachesTheGraphicsProcessor`. -/
theorem witness_FaultsAndOnlyFaultsEndTheRun :
    (∃ t, executeCycleWith defaultOpcodeMap State.reset = .next t) ∧
      ∃ reason t, executeCycleWith defaultOpcodeMap badOpcode = .fault (.raised reason t) := ⟨⟨_, rfl⟩, ⟨_, _, rfl⟩⟩
theorem witness_StepIsSafeExactlyWhen : RunsSafely 1 lastFetch ∧ ¬ RunsSafely 1 badFetch := by
  refine ⟨⟨_, rfl⟩, ?_⟩
  rintro ⟨t, h⟩
  cases h
theorem witness_NormalEndRepeatsForever : AtNormalEnd atEnd := ⟨rfl, 0x00240010, by decide, by decide⟩
theorem witness_ZeroMemoryRunsAsNops :
    State.reset.run = .running ∧ (∀ a, readByte State.reset a = 0x00) ∧ State.reset.pc.toNat % 4 = 0 :=
  ⟨rfl, fun _ => rfl, rfl⟩
theorem witness_FaultsComeFromTheirInstructions :
    (∃ t, exec (.ldm 0x01 0xFFFF) State.reset = .fault (.raised (.memoryOutOfRange 0xFFFF 2) t)) ∧
      (∃ t, exec (.tsti 0x10 0) State.reset = .fault (.raised (.registerIndexOutOfRange 0x10) t)) ∧
      ∃ t, exec (.div2 0 1 2) State.reset = .fault (.raised .divideByZero t) := ⟨⟨_, rfl⟩, ⟨_, rfl⟩, ⟨_, rfl⟩⟩
/-- Also for `OnlyControlTransferWritesPc`. -/
theorem witness_OnlyCallAndRetWriteSp :
    (∃ t, exec (.add 1 2) State.reset = .next t) ∧ (Instr.add 1 2).mnemonic ≠ .call ∧ (Instr.add 1 2).mnemonic ≠ .ret ∧
      (Instr.add 1 2).mnemonic ≠ .jmp ∧ (Instr.add 1 2).mnemonic ≠ .j := ⟨⟨_, rfl⟩, by decide⟩
theorem witness_FlagsAreWrittenAsTabled :
    (∃ t, exec (.xor 1 2) State.reset = .next t) ∧ (∃ t, exec (.sub 1 2) State.reset = .next t) ∧
      (∃ t, exec (.mul2 1 2 3) State.reset = .next t) ∧ ∃ t, exec (.mov 1 2) State.reset = .next t :=
  ⟨⟨_, rfl⟩, ⟨_, rfl⟩, ⟨_, rfl⟩, ⟨_, rfl⟩⟩
theorem witness_RegistersAreWrittenAsTabled :
    (∃ t, exec (.ldi 0x0F 1) State.reset = .next t) ∧ (0 : RegIdx).val ≠ (0x0F : Byte).toNat ∧
      (∃ t, exec (.mov 1 2) State.reset = .next t) ∧ (∃ t, exec (.mul2 1 2 3) State.reset = .next t) ∧
      ∃ t, exec (.cmpi 1 2) State.reset = .next t := ⟨⟨_, rfl⟩, by decide, ⟨_, rfl⟩, ⟨_, rfl⟩, ⟨_, rfl⟩⟩
theorem witness_MemoryIsWrittenByStmAndCallOnly :
    (∃ t, exec (.stm 0x0F 0xFFFE) State.reset = .next t) ∧ (∃ t, exec (.call 0x0040) State.reset = .next t) ∧
      ∃ t, exec (.ldm 0x0F 0xFFFE) State.reset = .next t := ⟨⟨_, rfl⟩, ⟨_, rfl⟩, ⟨_, rfl⟩⟩
theorem witness_NoInstructionReadsFlags :
    (∃ t, exec (.j 0x01 0x0200) State.reset = .next t) ∧
      ∃ t, exec (.div2 0 1 2) State.reset = .fault (.raised .divideByZero t) := ⟨⟨_, rfl⟩, ⟨_, rfl⟩⟩
theorem witness_JTestsItsOwnByte : (0x01 : Byte) ≠ 0x00 ∧ (0xFF : Byte) ≠ 0x00 ∧ (0x00 : Byte) = 0x00 := by decide
theorem witness_CallPushesAndJumps :
    (setSp State.reset 0xFFFE).sp ≠ 0xFFFF ∧ (setSp State.reset 0xFFFF).sp = 0xFFFF := by decide
theorem witness_RetPopsIntoPc :
    (setSp State.reset 0x0000).sp ≠ 0x0001 ∧ (setSp State.reset 0x0002).sp ≠ 0x0001 ∧
      (setSp State.reset 0x0001).sp = 0x0001 := by decide
theorem witness_CallThenRetReturns :
    ∃ t u : State, exec (.call 0x0040) (setSp State.reset 0xFFFE) = .next t ∧ u.sp = t.sp ∧
      readByte u 0xFFFE = readByte t 0xFFFE ∧ readByte u 0xFFFF = readByte t 0xFFFF := ⟨_, _, rfl, rfl, rfl, rfl⟩
/-- The index clauses of `LdiLoadsTheImmediate`, `LdmLoadsTheWordAtTheAddress`, `StmStoresTheRegister` and
`TstiSetsZeroAndNegative`, at the boundary of the register file. -/
theorem witness_wholeByteIndexClauses :
    (0x0F : Byte).toNat = (15 : RegIdx).val ∧ (0x0F : Byte).toNat < 16 ∧ 16 ≤ (0x10 : Byte).toNat := by decide
/-- The address clauses of `LdmLoadsTheWordAtTheAddress` and `StmStoresTheRegister`, with the index clauses above. -/
theorem witness_addressClauses :
    (0xFFFE : Word) ≠ 0xFFFF ∧ (0x0000 : Word) ≠ 0xFFFF ∧ (0xFFFF : Word) = 0xFFFF := by decide
theorem witness_SubOverflowIsNotSignedOverflow :
    (0x7FFF : Word).toInt - (0xFFFF : Word).toInt > 32767 ∧ (0x8000 : Word).toInt - (0x0001 : Word).toInt < -32768 := by
  decide
/-- The premises of R179 (i), (ii) and (iii), at their boundaries: 0, 0x7FFF and 0x10000. -/
theorem witness_Mul2WritesProductAndFlags :
    (0x0000 : Word).toInt * (0x8000 : Word).toInt = 0 ∧
      (0 ≤ (0x7FFF : Word).toInt ∧ 0 ≤ (0x0001 : Word).toInt ∧ (0x7FFF : Word).toInt * (0x0001 : Word).toInt ≤ 0x7FFF) ∧
      (0 ≤ (0x0100 : Word).toInt ∧ 0 ≤ (0x0100 : Word).toInt ∧ (0x0100 : Word).toInt * (0x0100 : Word).toInt > 0xFFFF) := by
  decide
theorem witness_Div2WritesQuotientAndFlags :
    readGp (machineWith [(4, 0xFFFF)] []) 4 ≠ 0 ∧ readGp (machineWith [] []) 4 = 0 := by decide
theorem witness_WriteThenReadGivesTheValue :
    (0xFFFE : Word) ≠ 0xFFFF ∧ (0xFFFC : Word) ≠ 0xFFFF ∧ (0xFFFC : Word).toNat ≤ 0xFFFC := by decide
/-- Also for `DriverSetPcHandsOverTheStart`. -/
theorem witness_FillMemoryCopiesTheBytes :
    State.reset.run = .running ∧ (0xFFFC : Word).toNat + [(1 : Byte), 2, 3, 4].length ≤ 65536 ∧
      (0xFFFD : Word).toNat + [(1 : Byte), 2, 3, 4].length > 65536 := by decide

end Sys2Proof.Tests
end

section
/-! PROOFS. The family 20_memory.md: which accesses are out of range, and that no step reaches the graphics
co-processor. -/

namespace Sys2Proof.Machine

/-! ### Out-of-range accesses (R54) -/

theorem read16_eq_none_iff (s : State) (a : Word) : read16 s a = none ↔ a = 0xFFFF := by
  have hnone : read16 s a = none ↔ ¬ inRange a 2 = true := by simp [read16]
  rw [hnone, inRange_two, not_not]

theorem read32_eq_none_iff (s : State) (a : Word) : read32 s a = none ↔ 0xFFFC < a.toNat := by
  have hnone : read32 s a = none ↔ ¬ inRange a 4 = true := by simp [read32]
  rw [hnone, inRange_four, not_le]

/-- The three addresses above the last whole 32-bit word. -/
theorem above_0xFFFC_iff (a : Word) : 0xFFFC < a.toNat ↔ a = 0xFFFD ∨ a = 0xFFFE ∨ a = 0xFFFF := by
  bv_omega

theorem write16_outOfRange_iff (s : State) (a v : Word) :
    (∃ t, write16 s a v = .fault (.raised (.memoryOutOfRange a 2) t)) ↔ a = 0xFFFF := by
  rcases write16_cases s a v with ⟨hne, hw⟩ | ⟨heq, hw⟩
  · simpa [hw] using hne
  · exact ⟨fun _ => heq, fun _ => ⟨_, hw⟩⟩

/-- Settles O51: each access tests its own range, and the tests fail at the listed addresses alone. -/
theorem outOfRangeAccessesAreExactly : Obligations.OutOfRangeAccessesAreExactly := by
  intro s a v
  refine ⟨decide_eq_true_iff, decide_eq_true_iff, read16_eq_none_iff s a, ?_, write16_outOfRange_iff s a v⟩
  rw [read32_eq_none_iff, above_0xFFFC_iff]

/-! ### The graphics state (R65) -/

/-- The answer leaves the graphics state at `g`, and its fault, if it raises one, is not the co-processor's (R206). -/
def KeepsGpu (g : Gpu) : Result → Prop
  | .next t => t.gpu = g
  | .fault (.raised reason t) => t.gpu = g ∧ ∀ command, reason ≠ .unimplementedCommand command
  | .fault (.runIsOver _ _) => True
  | .refused _ => True

theorem KeepsGpu.raiseFault {reason : FaultReason} {g : Gpu} {s : State} (hs : s.gpu = g)
    (hr : ∀ command, reason ≠ .unimplementedCommand command) : KeepsGpu g (raiseFault reason s) := ⟨hs, hr⟩

theorem KeepsGpu.andThen {g : Gpu} {r : Result} {k : State → Result} (hr : KeepsGpu g r)
    (hk : ∀ t, t.gpu = g → KeepsGpu g (k t)) : KeepsGpu g (andThen r k) := by
  cases r with
  | next t => exact hk t hr
  | fault f => exact hr
  | refused f => exact hr

theorem KeepsGpu.write16 (s : State) (a v : Word) : KeepsGpu s.gpu (write16 s a v) := by
  rcases write16_cases s a v with ⟨-, hw⟩ | ⟨-, hw⟩ <;> rw [hw]
  · exact writeWord_gpu s a v
  · exact .raiseFault (partialWrite_gpu s a v) nofun

theorem KeepsGpu.withByteIndex (r : Byte) (s : State) {k : RegIdx → Result} (hk : ∀ i, KeepsGpu s.gpu (k i)) :
    KeepsGpu s.gpu (withByteIndex r s k) := by
  rcases withByteIndex_cases r s k with ⟨_, hw⟩ | ⟨-, hw⟩ <;> rw [hw]
  · exact hk _
  · exact .raiseFault rfl nofun

theorem KeepsGpu.withRead16 (a : Word) (s : State) {k : Word → Result} (hk : ∀ v, KeepsGpu s.gpu (k v)) :
    KeepsGpu s.gpu (withRead16 a s k) := by
  rcases withRead16_cases a s k with ⟨-, hw⟩ | ⟨-, hw⟩ <;> rw [hw]
  · exact hk _
  · exact .raiseFault rfl nofun

/-- No handler reaches the graphics co-processor. -/
theorem exec_keepsGpu (i : Instr) (s : State) : KeepsGpu s.gpu (exec i s) := by
  cases i with
  | nop | jmp | mov | addi | add | sub | cmpi | or | xor | mul2 => rfl
  | j cond target =>
    change KeepsGpu s.gpu (execJ cond target s)
    unfold execJ
    split <;> rfl
  | call target => exact (KeepsGpu.write16 s _ _).andThen fun _ ht => ht
  | ret => exact KeepsGpu.withRead16 _ (decrementSp s) fun _ => rfl
  | ldi r imm => exact .withByteIndex r s fun _ => rfl
  | ldm r addr => exact .withByteIndex r s fun _ => .withRead16 addr s fun _ => rfl
  | stm r addr => exact .withByteIndex r s fun _ => .write16 s addr _
  | tsti r imm => exact .withByteIndex r s fun _ => rfl
  | div2 x y z =>
    by_cases hy : readGp s y = 0
    · exact exec_div2_fault hy x z ▸ .raiseFault rfl nofun
    · exact exec_div2 hy x z ▸ setZNC_gpu _ _ _

/-- Settles O17: a step that goes on ran a handler, and a step that faults raised in the fetch, in the dispatch or in a
handler. -/
theorem noStepReachesTheGraphicsProcessor : Obligations.NoStepReachesTheGraphicsProcessor := by
  intro m s
  constructor
  · intro t h
    obtain ⟨-, -, i, u, -, hu, rfl⟩ := executeCycleWith_next h
    exact (hu ▸ exec_keepsGpu i (setPc s (s.pc + 4)) : KeepsGpu s.gpu (.next u))
  · intro reason t h
    obtain ⟨-, ⟨rfl, rfl⟩ | ⟨op, rfl, rfl⟩ | ⟨i, hf⟩⟩ := executeCycleWith_raised h
    · exact ⟨rfl, nofun⟩
    · exact ⟨rfl, nofun⟩
    · exact (hf ▸ exec_keepsGpu i (setPc s (s.pc + 4)) : KeepsGpu s.gpu (.fault (.raised reason t)))

end Sys2Proof.Machine
end

section
/-! PROOFS. The family 41_control_transfer.md: NOP, and the two jumps that touch neither the stack nor memory. -/

namespace Sys2Proof.Machine

/-! ### NOP and JMP (R120, R121) -/

/-- Settles O30: NOP's handler answers the state it is given. -/
theorem nopHasNoEffect : Obligations.NopHasNoEffect := fun _ => rfl

/-- Settles O31: JMP's handler is `setPc`, which writes `PC` alone. -/
theorem jmpSetsPc : Obligations.JmpSetsPc := fun _ _ => rfl

/-! ### J (R123) -/

theorem exec_j_taken {cond : Byte} (h : cond ≠ 0) (target : Word) (s : State) :
    exec (.j cond target) s = .next (setPc s target) := by
  have h' : cond.toNat ≠ 0 := fun e => h (BitVec.eq_of_toNat_eq e)
  simp only [exec, execJ, if_pos h']

theorem exec_j_zero (target : Word) (s : State) : exec (.j 0 target) s = .next s := rfl

/-- Settles O32: the handler tests the byte as a number, which is zero for the byte 0x00 alone. -/
theorem jTestsItsOwnByte : Obligations.JTestsItsOwnByte := by
  intro c target s
  constructor
  · intro hc
    exact exec_j_taken hc target s
  · rintro rfl
    exact exec_j_zero target s

end Sys2Proof.Machine
end

section
/-! PROOFS. The family 42_data_movement.md: what one register write leaves unchanged, and MOV. -/

namespace Sys2Proof.Machine

/-! ### MOV (R143) -/

/-- A register write changes the register it names and nothing else (R23, R38). -/
theorem writeGp_frameExcept (s : State) (x : RegIdx) (v : Word) : FrameExcept [x] [] s (writeGp s x v) where
  gp := fun _ hi => readGp_writeGp_ne s v (Ne.symm (List.ne_of_not_mem_cons hi))
  flags := fun _ _ => rfl
  mem := fun _ => rfl
  pc := writeGp_pc s x v
  sp := writeGp_sp s x v
  rest := ⟨writeGp_cycles s x v, writeGp_gpu s x v, writeGp_run s x v⟩

theorem exec_mov (x y : RegIdx) (s : State) : exec (.mov x y) s = .next (writeGp s x (readGp s y)) := rfl

/-- Settles O39: MOV's handler is one register write, of the value read before it. -/
theorem movCopiesARegister : Obligations.MovCopiesARegister := by
  intro x y s
  exact ⟨writeGp s x (readGp s y), exec_mov x y s, readGp_writeGp_self s x _, writeGp_frameExcept s x _⟩

end Sys2Proof.Machine
end

section
/-! PROOFS. The family 43_alu_and_flags.md: XOR and OR, and the add and subtract family ADD, ADDI, SUB and CMPI. -/

namespace Sys2Proof.Machine

/-! ### What the flag setters leave unchanged (R31) -/

theorem FrameExcept.refl (s : State) : FrameExcept [] [] s s where
  gp := fun _ _ => rfl
  flags := fun _ _ => rfl
  mem := fun _ => rfl
  pc := rfl
  sp := rfl
  rest := ⟨rfl, rfl, rfl⟩

/-- One more flag set adds that flag to the frame's exceptions. -/
theorem FrameExcept.setFlag {regs : List RegIdx} {fs : List Flag} {s t : State} (h : FrameExcept regs fs s t)
    (f : Flag) (b : Bool) : FrameExcept regs (fs ++ [f]) s (setFlag t f b) where
  gp := h.gp
  flags := by
    intro k hk
    have hne : k ≠ flagBit f := Ne.symm (hk f (by simp))
    rw [setFlag_getLsbD, if_neg hne]
    exact h.flags k fun g hg => hk g (List.mem_append_left [f] hg)
  mem := h.mem
  pc := h.pc
  sp := h.sp
  rest := ⟨h.rest.cycles, h.rest.gpu, h.rest.run⟩

theorem FrameExcept.setZN {regs : List RegIdx} {s t : State} (h : FrameExcept regs [] s t) (res : Word) :
    FrameExcept regs [.z, .n] s (setZN t res) :=
  (h.setFlag .z _).setFlag .n _

theorem FrameExcept.setZNOC {regs : List RegIdx} {s t : State} (h : FrameExcept regs [] s t) (out : AluOut) :
    FrameExcept regs [.z, .n, .o, .c] s (setZNOC t out) :=
  (((h.setFlag .z _).setFlag .n _).setFlag .o _).setFlag .c _

@[simp] theorem readGp_setZN (s : State) (res : Word) (i : RegIdx) : readGp (setZN s res) i = readGp s i :=
  readGp_congr (setZN_gp s res) i

@[simp] theorem readGp_setZNOC (s : State) (out : AluOut) (i : RegIdx) : readGp (setZNOC s out) i = readGp s i :=
  readGp_congr (setZNOC_gp s out) i

/-! ### When each flag rule holds (R162 to R166) -/

theorem zf_iff (res : Word) : zf res = true ↔ res = 0 := by
  rw [zf_eq, decide_eq_true_iff]

theorem nf_iff (res : Word) : nf res = true ↔ res.toInt < 0 := by
  have hmsb : nf res = res.msb := (BitVec.msb_eq_getLsbD_last res).symm
  rw [hmsb, BitVec.msb_eq_toInt, decide_eq_true_iff]

theorem ov_iff (a b r : Word) : ov a b r = true ↔
    (a.toInt > 0 ∧ b.toInt > 0 ∧ r.toInt < 0) ∨ (a.toInt < 0 ∧ b.toInt < 0 ∧ r.toInt > 0) :=
  decide_eq_true_iff

theorem ca_iff (a b : Word) : ca a b = true ↔ a.toNat + b.toNat ≥ 0x10000 := decide_eq_true_iff

theorem cs_iff (a b : Word) : cs a b = true ↔ a.toNat < b.toNat := decide_eq_true_iff

/-- The add core over the machine word's own addition (R161, R167). -/
theorem addF_eq (a b : Word) : addF a b = ⟨a + b, zf (a + b), nf (a + b), ov a b (a + b), ca a b⟩ := by
  simp only [addF, trunc16_add]

/-- The subtract core over the machine word's own subtraction (R161, R168). -/
theorem subF_eq (a b : Word) : subF a b = ⟨a - b, zf (a - b), nf (a - b), ov a b (a - b), cs a b⟩ := by
  simp only [subF, trunc16_sub]

/-- The four flags an addition leaves. -/
theorem getFlag_setZNOC_addF (s : State) (a b : Word) :
    (getFlag (setZNOC s (addF a b)) .z = true ↔ a + b = 0) ∧
    (getFlag (setZNOC s (addF a b)) .n = true ↔ (a + b).toInt < 0) ∧
    (getFlag (setZNOC s (addF a b)) .o = true ↔
      (a.toInt > 0 ∧ b.toInt > 0 ∧ (a + b).toInt < 0) ∨ (a.toInt < 0 ∧ b.toInt < 0 ∧ (a + b).toInt > 0)) ∧
    (getFlag (setZNOC s (addF a b)) .c = true ↔ a.toNat + b.toNat ≥ 0x10000) := by
  simp only [getFlag_setZNOC, addF_eq]
  exact ⟨zf_iff _, nf_iff _, ov_iff a b _, ca_iff a b⟩

/-- The four flags a subtraction leaves; the difference is zero where the operands are equal. -/
theorem getFlag_setZNOC_subF (s : State) (a b : Word) :
    (getFlag (setZNOC s (subF a b)) .z = true ↔ a = b) ∧
    (getFlag (setZNOC s (subF a b)) .n = true ↔ (a - b).toInt < 0) ∧
    (getFlag (setZNOC s (subF a b)) .o = true ↔
      (a.toInt > 0 ∧ b.toInt > 0 ∧ (a - b).toInt < 0) ∨ (a.toInt < 0 ∧ b.toInt < 0 ∧ (a - b).toInt > 0)) ∧
    (getFlag (setZNOC s (subF a b)) .c = true ↔ a.toNat < b.toNat) := by
  simp only [getFlag_setZNOC, subF_eq]
  exact ⟨(zf_iff _).trans sub_eq_zero, nf_iff _, ov_iff a b _, cs_iff a b⟩

/-! ### XOR and OR (R171, R172) -/

theorem exec_xor (x y : RegIdx) (s : State) :
    exec (.xor x y) s = logicInto x (readGp s x ^^^ readGp s y) s := rfl

theorem exec_or (x y : RegIdx) (s : State) :
    exec (.or x y) s = logicInto x (readGp s x ||| readGp s y) s := rfl

/-- The shared lines of XOR and OR: the result in `GP[x]`, Z and N from it, all else unchanged. -/
theorem logicInto_spec (x : RegIdx) (res : Word) (s : State) : ∃ t, logicInto x res s = .next t ∧
    readGp t x = res ∧ (getFlag t .z = true ↔ res = 0) ∧ getFlag t .n = res.getLsbD 15 ∧
    FrameExcept [x] [.z, .n] s t := by
  refine ⟨setZN (writeGp s x res) res, rfl, ?_, ?_, getFlag_setZN _ res .n, (writeGp_frameExcept s x res).setZN res⟩
  · rw [readGp_setZN, readGp_writeGp_self]
  · rw [getFlag_setZN, zf_iff]

/-- Settles O41: the shared lines, with the exclusive or as the result. -/
theorem xorWritesResultZeroAndNegative : Obligations.XorWritesResultZeroAndNegative := by
  intro x y s
  rw [exec_xor]
  exact logicInto_spec x _ s

/-- Settles O42: the shared lines, with the inclusive or as the result. -/
theorem orWritesResultZeroAndNegative : Obligations.OrWritesResultZeroAndNegative := by
  intro x y s
  rw [exec_or]
  exact logicInto_spec x _ s

/-! ### ADDI and ADD (R174, R173) -/

theorem exec_addi (x : RegIdx) (imm : Word) (s : State) :
    exec (.addi x imm) s = addSubInto x (addF (readGp s x) imm) s := rfl

/-- ADD is ADDI of the value its second register holds on entry (R106). -/
theorem exec_add_eq_addi (x y : RegIdx) (s : State) : exec (.add x y) s = exec (.addi x (readGp s y)) s := rfl

/-- The shared lines of ADD, ADDI and SUB: the result in `GP[x]`, and all unchanged but `GP[x]` and the four flags. -/
theorem addSubInto_spec (x : RegIdx) (out : AluOut) (s : State) :
    addSubInto x out s = .next (setZNOC (writeGp s x out.res) out) ∧
    readGp (setZNOC (writeGp s x out.res) out) x = out.res ∧
    FrameExcept [x] [.z, .n, .o, .c] s (setZNOC (writeGp s x out.res) out) := by
  refine ⟨rfl, ?_, (writeGp_frameExcept s x out.res).setZNOC out⟩
  rw [readGp_setZNOC, readGp_writeGp_self]

/-- Settles O44: the add core's result and flags, through the shared lines. -/
theorem addiWritesSumAndFlags : Obligations.AddiWritesSumAndFlags := by
  intro x imm s
  obtain ⟨hnext, hres, hframe⟩ := addSubInto_spec x (addF (readGp s x) imm) s
  obtain ⟨hz, hn, ho, hc⟩ := getFlag_setZNOC_addF (writeGp s x (addF (readGp s x) imm).res) (readGp s x) imm
  exact ⟨_, (exec_addi x imm s).trans hnext, hres.trans (addF_res _ _), hz, hn, ho, hc, hframe⟩

/-- Settles O43: ADDI's statement at the immediate `GP[y]`, `x = y` included. -/
theorem addWritesSumAndFlags : Obligations.AddWritesSumAndFlags := by
  intro x y s
  rw [exec_add_eq_addi]
  exact addiWritesSumAndFlags x (readGp s y) s

/-! ### SUB and CMPI (R175, R176) -/

theorem exec_sub (x y : RegIdx) (s : State) :
    exec (.sub x y) s = addSubInto x (subF (readGp s x) (readGp s y)) s := rfl

theorem exec_cmpi (x : RegIdx) (imm : Word) (s : State) :
    exec (.cmpi x imm) s = .next (setZNOC s (subF (readGp s x) imm)) := rfl

/-- Settles O45: the subtract core's result and flags, through the shared lines. -/
theorem subWritesDifferenceAndFlags : Obligations.SubWritesDifferenceAndFlags := by
  intro x y s
  obtain ⟨hnext, hres, hframe⟩ := addSubInto_spec x (subF (readGp s x) (readGp s y)) s
  obtain ⟨hz, hn, ho, hc⟩ :=
    getFlag_setZNOC_subF (writeGp s x (subF (readGp s x) (readGp s y)).res) (readGp s x) (readGp s y)
  exact ⟨_, (exec_sub x y s).trans hnext, hres.trans (subF_res _ _), hz, hn, ho, hc, hframe⟩

/-- Settles O46: the subtract core's flags, set on the state as it stands. -/
theorem cmpiWritesFlagsOnly : Obligations.CmpiWritesFlagsOnly := by
  intro x imm s
  obtain ⟨hz, hn, ho, hc⟩ := getFlag_setZNOC_subF s (readGp s x) imm
  exact ⟨_, exec_cmpi x imm s, hz, hn, ho, hc, (FrameExcept.refl s).setZNOC _⟩

end Sys2Proof.Machine
end

section
/-! PROOFS. The family 70_reset_and_hazards.md: the state construction leaves, for every value of the draws. -/

namespace Sys2Proof.Machine

/-! ### The drawn FLAGS byte (R30, R230) -/

/-- One flag's share of the drawn byte: its mask, or nothing. -/
theorem drawnMask_getLsbD (b : Bool) (mask : Byte) (k : Nat) :
    (if b then mask else 0).getLsbD k = (b && mask.getLsbD k) := by
  cases b <;> simp

theorem drawnMask_reserved {mask : Byte} (hmask : mask &&& reservedFlagBits = 0) (b : Bool) :
    (if b then mask else 0) &&& reservedFlagBits = 0 := by
  cases b
  · exact BitVec.zero_and
  · exact hmask

/-- No flag's mask meets a reserved bit, so neither does their union. -/
theorem ResetDraws.flags_reserved (d : ResetDraws) : d.flags &&& reservedFlagBits = 0 := by
  have hc := drawnMask_reserved (mask := 0x02) (by decide) d.c
  have hz := drawnMask_reserved (mask := 0x04) (by decide) d.z
  have ho := drawnMask_reserved (mask := 0x40) (by decide) d.o
  have hn := drawnMask_reserved (mask := 0x80) (by decide) d.n
  simp only [ResetDraws.flags, BitVec.and_or_distrib_right, hc, hz, ho, hn]
  rfl

/-- The drawn value of one flag. -/
def ResetDraws.flag (d : ResetDraws) : Flag → Bool
  | .c => d.c
  | .z => d.z
  | .o => d.o
  | .n => d.n

/-- At a flag's bit only that flag's mask has a one. -/
theorem getFlag_resetWith (d : ResetDraws) (f : Flag) : getFlag (State.resetWith d) f = d.flag f := by
  have hbits : getFlag (State.resetWith d) f = d.flags.getLsbD (flagBit f) := rfl
  simp only [hbits, ResetDraws.flags, BitVec.getLsbD_or, drawnMask_getLsbD]
  cases f <;> simp [flagBit, ResetDraws.flag]

/-! ### Memory after construction (R51, R230) -/

/-- Construction lists no byte, so each address reads as an unlisted one. -/
theorem readByte_resetWith (d : ResetDraws) (a : Nat) : readByte (State.resetWith d) a = 0x00 := rfl

/-- Settles O1: `State.reset` takes the zero draws; FLAGS and memory by the lemmas above, each other field as built. -/
theorem resetStateOfEveryDraw : Obligations.ResetStateOfEveryDraw := by
  refine ⟨⟨ResetDraws.zero, rfl⟩, fun d => ?_⟩
  exact ⟨rfl, rfl, fun _ => rfl, d.flags_reserved, getFlag_resetWith d .c, getFlag_resetWith d .z,
    getFlag_resetWith d .o, getFlag_resetWith d .n, readByte_resetWith d, rfl, rfl, rfl⟩

end Sys2Proof.Machine
end

section
/-! PROOFS. What a handler can do, said once for all instructions: the state each one leaves when it goes on, and the
state each fault is raised in. The statements over all instructions are read off these two relations. -/

namespace Sys2Proof.Machine

/-! ### The two relations, and that `exec` answers one of them -/

/-- `Completes i s t`: run in the state `s`, the handler of `i` goes on and leaves `t` (R120 to R127, R140 to R143, R170 to
R178). Tied to `exec` by `exec_eq_next_iff`. -/
inductive Completes : Instr → State → State → Prop where
  | nop (s : State) : Completes .nop s s
  | jmp (target : Word) (s : State) : Completes (.jmp target) s (setPc s target)
  | jTaken {cond : Byte} (hc : cond ≠ 0) (target : Word) (s : State) : Completes (.j cond target) s (setPc s target)
  | jZero (target : Word) (s : State) : Completes (.j 0 target) s s
  | call {s : State} (hsp : s.sp ≠ 0xFFFF) (target : Word) :
      Completes (.call target) s (setPc (setSp (writeWord s s.sp s.pc) (s.sp + 2)) target)
  | ret {s : State} (hsp : s.sp ≠ 0x0001) :
      Completes .ret s (setPc (setSp s (s.sp - 2)) (wordAt s.mem (s.sp - 2).toNat))
  | ldi {r : Byte} (hr : r.toNat < 16) (imm : Word) (s : State) :
      Completes (.ldi r imm) s (writeGp s ⟨r.toNat, hr⟩ imm)
  | ldm {r : Byte} (hr : r.toNat < 16) {addr : Word} (ha : addr ≠ 0xFFFF) (s : State) :
      Completes (.ldm r addr) s (writeGp s ⟨r.toNat, hr⟩ (wordAt s.mem addr.toNat))
  | mov (x y : RegIdx) (s : State) : Completes (.mov x y) s (writeGp s x (readGp s y))
  | stm {r : Byte} (hr : r.toNat < 16) {addr : Word} (ha : addr ≠ 0xFFFF) (s : State) :
      Completes (.stm r addr) s (writeWord s addr (readGp s ⟨r.toNat, hr⟩))
  | addi (x : RegIdx) (imm : Word) (s : State) :
      Completes (.addi x imm) s (setZNOC (writeGp s x (addF (readGp s x) imm).res) (addF (readGp s x) imm))
  | add (x y : RegIdx) (s : State) :
      Completes (.add x y) s
        (setZNOC (writeGp s x (addF (readGp s x) (readGp s y)).res) (addF (readGp s x) (readGp s y)))
  | sub (x y : RegIdx) (s : State) :
      Completes (.sub x y) s
        (setZNOC (writeGp s x (subF (readGp s x) (readGp s y)).res) (subF (readGp s x) (readGp s y)))
  | cmpi (x : RegIdx) (imm : Word) (s : State) : Completes (.cmpi x imm) s (setZNOC s (subF (readGp s x) imm))
  | tsti {r : Byte} (hr : r.toNat < 16) (imm : Word) (s : State) :
      Completes (.tsti r imm) s (setZN s (readGp s ⟨r.toNat, hr⟩ &&& imm))
  | or (x y : RegIdx) (s : State) :
      Completes (.or x y) s (setZN (writeGp s x (readGp s x ||| readGp s y)) (readGp s x ||| readGp s y))
  | xor (x y : RegIdx) (s : State) :
      Completes (.xor x y) s (setZN (writeGp s x (readGp s x ^^^ readGp s y)) (readGp s x ^^^ readGp s y))
  | mul2 (x y z : RegIdx) (s : State) :
      Completes (.mul2 x y z) s
        (setZNC (writeGp s z (mulRes (readGp s x) (readGp s y))) (mulRes (readGp s x) (readGp s y))
          (mul2Carry (readGp s x) (readGp s y)))
  | div2 {s : State} {y : RegIdx} (hy : readGp s y ≠ 0) (x z : RegIdx) :
      Completes (.div2 x y z) s
        (setZNC (writeGp s z (divRes (readGp s x) (readGp s y))) (divRes (readGp s x) (readGp s y))
          (divCarry (readGp s x) (readGp s y)))

/-- `Raises i s reason u`: run in the state `s`, the handler of `i` raises `reason` in the state `u`, which holds the effects
of its earlier lines (R201, R203 to R205). Tied to `exec` by `Raises.exec_eq` and `exec_eq_fault`. -/
inductive Raises : Instr → State → FaultReason → State → Prop where
  | call {s : State} (hsp : s.sp = 0xFFFF) (target : Word) :
      Raises (.call target) s (.memoryOutOfRange 0xFFFF 2) (partialWrite s 0xFFFF s.pc)
  | ret {s : State} (hsp : s.sp = 0x0001) : Raises .ret s (.memoryOutOfRange 0xFFFF 2) (setSp s 0xFFFF)
  | ldiIndex {r : Byte} (hr : 16 ≤ r.toNat) (imm : Word) (s : State) :
      Raises (.ldi r imm) s (.registerIndexOutOfRange r) s
  | ldmIndex {r : Byte} (hr : 16 ≤ r.toNat) (addr : Word) (s : State) :
      Raises (.ldm r addr) s (.registerIndexOutOfRange r) s
  | ldmAddr {r : Byte} (hr : r.toNat < 16) (s : State) : Raises (.ldm r 0xFFFF) s (.memoryOutOfRange 0xFFFF 2) s
  | stmIndex {r : Byte} (hr : 16 ≤ r.toNat) (addr : Word) (s : State) :
      Raises (.stm r addr) s (.registerIndexOutOfRange r) s
  | stmAddr {r : Byte} (hr : r.toNat < 16) (s : State) :
      Raises (.stm r 0xFFFF) s (.memoryOutOfRange 0xFFFF 2) (partialWrite s 0xFFFF (readGp s ⟨r.toNat, hr⟩))
  | tstiIndex {r : Byte} (hr : 16 ≤ r.toNat) (imm : Word) (s : State) :
      Raises (.tsti r imm) s (.registerIndexOutOfRange r) s
  | div2 {s : State} {y : RegIdx} (hy : readGp s y = 0) (x z : RegIdx) : Raises (.div2 x y z) s .divideByZero s

theorem Completes.exec_eq {i : Instr} {s t : State} (h : Completes i s t) : exec i s = .next t := by
  cases h with
  | nop | jmp | jZero | mov | addi | add | sub | cmpi | or | xor | mul2 => rfl
  | jTaken hc target => exact exec_j_taken hc target s
  | call hsp target => exact exec_call hsp target
  | ret hsp => exact exec_ret hsp
  | ldi hr imm => exact exec_ldi hr imm s
  | ldm hr ha => exact exec_ldm hr ha s
  | stm hr ha => exact exec_stm hr ha s
  | tsti hr imm => exact exec_tsti hr imm s
  | div2 hy x z => exact exec_div2 hy x z

theorem Raises.exec_eq {i : Instr} {s u : State} {reason : FaultReason} (h : Raises i s reason u) :
    exec i s = raiseFault reason u := by
  cases h with
  | call hsp target => exact exec_call_fault hsp target
  | ret hsp => exact exec_ret_fault hsp
  | ldiIndex hr imm => exact exec_ldi_fault hr imm s
  | ldmIndex hr addr => exact exec_ldm_index_fault hr addr s
  | ldmAddr hr => exact exec_ldm_fault hr s
  | stmIndex hr addr => exact exec_stm_index_fault hr addr s
  | stmAddr hr => exact exec_stm_fault hr s
  | tstiIndex hr imm => exact exec_tsti_fault hr imm s
  | div2 hy x z => exact exec_div2_fault hy x z

/-- Every handler in every state goes on or raises. -/
theorem completes_or_raises (i : Instr) (s : State) :
    (∃ t, Completes i s t) ∨ ∃ reason u, Raises i s reason u := by
  cases i with
  | nop => exact .inl ⟨_, .nop s⟩
  | jmp target => exact .inl ⟨_, .jmp target s⟩
  | j cond target =>
    by_cases hc : cond = 0
    · exact hc ▸ .inl ⟨_, .jZero target s⟩
    · exact .inl ⟨_, .jTaken hc target s⟩
  | call target =>
    by_cases hsp : s.sp = 0xFFFF
    · exact .inr ⟨_, _, .call hsp target⟩
    · exact .inl ⟨_, .call hsp target⟩
  | ret =>
    by_cases hsp : s.sp = 0x0001
    · exact .inr ⟨_, _, .ret hsp⟩
    · exact .inl ⟨_, .ret hsp⟩
  | ldi r imm =>
    rcases lt_or_ge r.toNat 16 with hr | hr
    · exact .inl ⟨_, .ldi hr imm s⟩
    · exact .inr ⟨_, _, .ldiIndex hr imm s⟩
  | ldm r addr =>
    rcases lt_or_ge r.toNat 16 with hr | hr
    · by_cases ha : addr = 0xFFFF
      · exact ha ▸ .inr ⟨_, _, .ldmAddr hr s⟩
      · exact .inl ⟨_, .ldm hr ha s⟩
    · exact .inr ⟨_, _, .ldmIndex hr addr s⟩
  | mov x y => exact .inl ⟨_, .mov x y s⟩
  | stm r addr =>
    rcases lt_or_ge r.toNat 16 with hr | hr
    · by_cases ha : addr = 0xFFFF
      · exact ha ▸ .inr ⟨_, _, .stmAddr hr s⟩
      · exact .inl ⟨_, .stm hr ha s⟩
    · exact .inr ⟨_, _, .stmIndex hr addr s⟩
  | addi x imm => exact .inl ⟨_, .addi x imm s⟩
  | add x y => exact .inl ⟨_, .add x y s⟩
  | sub x y => exact .inl ⟨_, .sub x y s⟩
  | cmpi x imm => exact .inl ⟨_, .cmpi x imm s⟩
  | tsti r imm =>
    rcases lt_or_ge r.toNat 16 with hr | hr
    · exact .inl ⟨_, .tsti hr imm s⟩
    · exact .inr ⟨_, _, .tstiIndex hr imm s⟩
  | or x y => exact .inl ⟨_, .or x y s⟩
  | xor x y => exact .inl ⟨_, .xor x y s⟩
  | mul2 x y z => exact .inl ⟨_, .mul2 x y z s⟩
  | div2 x y z =>
    by_cases hy : readGp s y = 0
    · exact .inr ⟨_, _, .div2 hy x z⟩
    · exact .inl ⟨_, .div2 hy x z⟩

theorem exec_eq_next_iff {i : Instr} {s t : State} : exec i s = .next t ↔ Completes i s t := by
  refine ⟨fun h => ?_, Completes.exec_eq⟩
  rcases completes_or_raises i s with ⟨t', ht⟩ | ⟨reason, u, hu⟩
  · cases h.symm.trans ht.exec_eq
    exact ht
  · exact absurd (hu.exec_eq.symm.trans h) (raiseFault_ne_next reason u t)

/-- A handler that goes on neither faults nor refuses, so each fault is one of the listed raises. -/
theorem exec_eq_fault {i : Instr} {s : State} {f : Fault} (h : exec i s = .fault f) :
    ∃ reason u, Raises i s reason u ∧ f = .raised reason (faultedState reason u) := by
  rcases completes_or_raises i s with ⟨t, ht⟩ | ⟨reason, u, hu⟩
  · cases h.symm.trans ht.exec_eq
  · cases h.symm.trans hu.exec_eq
    exact ⟨reason, u, hu, rfl⟩

theorem exec_eq_raised {i : Instr} {s t : State} {reason : FaultReason} (h : exec i s = .fault (.raised reason t)) :
    ∃ u, Raises i s reason u ∧ t = faultedState reason u := by
  obtain ⟨reason', u, hu, hf⟩ := exec_eq_fault h
  cases hf
  exact ⟨u, hu, rfl⟩

theorem exec_ne_refused (i : Instr) (s : State) (x : Refusal) : exec i s ≠ .refused x := by
  intro h
  rcases completes_or_raises i s with ⟨t, ht⟩ | ⟨reason, u, hu⟩
  · cases h.symm.trans ht.exec_eq
  · cases h.symm.trans hu.exec_eq

/-! ### When a handler completes, and where its faults come from (R203 to R205, R209) -/

theorem Completes.canComplete {i : Instr} {s t : State} (h : Completes i s t) : CanComplete i s := by
  cases h with
  | call h | ret h | ldi h | tsti h | div2 h => exact h
  | ldm hr ha | stm hr ha => exact ⟨hr, ha⟩
  | _ => exact trivial

theorem Raises.not_canComplete {i : Instr} {s u : State} {reason : FaultReason} (h : Raises i s reason u) :
    ¬ CanComplete i s := by
  intro hcan
  cases h with
  | call h | ret h | div2 h => exact hcan h
  | ldiIndex hr | tstiIndex hr => exact absurd hcan (not_lt.2 hr)
  | ldmIndex hr | stmIndex hr => exact absurd hcan.1 (not_lt.2 hr)
  | ldmAddr | stmAddr => exact hcan.2 rfl

/-- Settles O22: a completing handler meets its conditions, and a raising one breaks them. -/
theorem instructionsCompleteExactlyWhen : Obligations.InstructionsCompleteExactlyWhen := by
  intro i s
  constructor
  · rintro ⟨t, h⟩
    exact (exec_eq_next_iff.1 h).canComplete
  · intro hcan
    rcases completes_or_raises i s with ⟨t, ht⟩ | ⟨reason, u, hu⟩
    · exact ⟨t, ht.exec_eq⟩
    · exact absurd hcan hu.not_canComplete

/-- A whole-byte index of 16 or more names no register (R28). -/
theorem wholeByteIndexOk_eq_false {r : Byte} (hr : 16 ≤ r.toNat) : wholeByteIndexOk r = false :=
  decide_eq_false (not_lt.2 hr)

/-- Settles O23: the listed raises, one by one. -/
theorem faultsComeFromTheirInstructions : Obligations.FaultsComeFromTheirInstructions := by
  intro i s
  refine ⟨exec_ne_refused i s, fun reason t h => ?_, fun reason t h => ?_⟩
  · obtain ⟨_, _, -, hf⟩ := exec_eq_fault h
    cases hf
  · obtain ⟨u, hu, -⟩ := exec_eq_raised h
    cases hu with
    | ldmAddr => exact ⟨rfl, rfl, .inl rfl⟩
    | stmAddr => exact ⟨rfl, rfl, .inr (.inl rfl)⟩
    | call => exact ⟨rfl, rfl, .inr (.inr (.inl rfl))⟩
    | ret => exact ⟨rfl, rfl, .inr (.inr (.inr rfl))⟩
    | ldiIndex hr => exact ⟨hr, wholeByteIndexOk_eq_false hr, .inl rfl⟩
    | ldmIndex hr => exact ⟨hr, wholeByteIndexOk_eq_false hr, .inr (.inl rfl)⟩
    | stmIndex hr => exact ⟨hr, wholeByteIndexOk_eq_false hr, .inr (.inr (.inl rfl))⟩
    | tstiIndex hr => exact ⟨hr, wholeByteIndexOk_eq_false hr, .inr (.inr (.inr rfl))⟩
    | div2 => rfl

end Sys2Proof.Machine
end

section
/-! PROOFS. What each instruction leaves unchanged: `SP`, `PC`, registers, memory and FLAGS (10_state.md R23 to R32,
20_memory.md R59). -/

namespace Sys2Proof.Machine

/-! ### Frames of the shared updates -/

theorem FlagsSameExcept.mono {fs gs : List Flag} {s t : State} (h : FlagsSameExcept fs s t) (hsub : fs ⊆ gs) :
    FlagsSameExcept gs s t := fun b hb => h b fun f hf => hb f (hsub hf)

theorem FlagsSameExcept.flags_eq {s t : State} (h : FlagsSameExcept [] s t) : t.flags = s.flags :=
  BitVec.eq_of_getLsbD_eq fun b _ => h b nofun

/-- No flag stands at a reserved bit, so a frame that excepts flags alone keeps the reserved bits (R30). -/
theorem FlagsSameExcept.reserved {fs : List Flag} {s t : State} (h : FlagsSameExcept fs s t) :
    t.flags &&& reservedFlagBits = s.flags &&& reservedFlagBits := by
  apply BitVec.eq_of_getLsbD_eq
  intro b _
  rw [BitVec.getLsbD_and, BitVec.getLsbD_and]
  by_cases hb : ∃ f, flagBit f = b
  · obtain ⟨f, rfl⟩ := hb
    have hzero : reservedFlagBits.getLsbD (flagBit f) = false := by cases f <;> decide
    rw [hzero, Bool.and_false, Bool.and_false]
  · rw [h b fun f _ hf => hb ⟨f, hf⟩]

theorem FrameExcept.setZNC {regs : List RegIdx} {s t : State} (h : FrameExcept regs [] s t) (res : Word) (carry : Bool) :
    FrameExcept regs [.z, .n, .c] s (setZNC t res carry) :=
  (h.setZN res).setFlag .c carry

/-- A 16-bit write changes its two bytes alone (R56). -/
theorem memSameOutsideWord_writeWord (s : State) (a v : Word) : MemSameOutsideWord a s (writeWord s a v) := by
  intro b hlow hhigh
  rw [readByte_writeWord, if_neg hhigh, if_neg hlow]

/-! ### `SP`, `PC` and what is no handler's (R23, R26, R38) -/

/-- Settles O24: of the states the handlers leave, only CALL's and RET's set `SP`. -/
theorem onlyCallAndRetWriteSp : Obligations.OnlyCallAndRetWriteSp := by
  intro i s t h hcall hret
  cases exec_eq_next_iff.1 h with
  | call => exact absurd rfl hcall
  | ret => exact absurd rfl hret
  | _ => rfl

theorem Completes.restSame {i : Instr} {s t : State} (h : Completes i s t) : RestSame s t := by
  cases h <;> exact ⟨rfl, rfl, rfl⟩

/-- Settles O25: of the states the handlers leave, only those of the four control transfers set `PC`. -/
theorem onlyControlTransferWritesPc : Obligations.OnlyControlTransferWritesPc := by
  intro i s t h
  have hcomp := exec_eq_next_iff.1 h
  refine ⟨hcomp.restSame, fun hjmp hj hcall hret => ?_⟩
  cases hcomp with
  | jmp => exact absurd rfl hjmp
  | jTaken | jZero => exact absurd rfl hj
  | call => exact absurd rfl hcall
  | ret => exact absurd rfl hret
  | _ => rfl

/-! ### FLAGS (R32) -/

theorem znoc_subset_table : [Flag.z, Flag.n, Flag.o, Flag.c] ⊆ [Flag.c, Flag.z, Flag.o, Flag.n] := by decide
theorem znc_subset_table : [Flag.z, Flag.n, Flag.c] ⊆ [Flag.c, Flag.z, Flag.n] := by decide

theorem Completes.flagsSameExcept {i : Instr} {s t : State} (h : Completes i s t) :
    FlagsSameExcept (flagsWritten i.mnemonic) s t := by
  cases h with
  | tsti => exact ((FrameExcept.refl s).setZN _).flags
  | or | xor => exact ((writeGp_frameExcept s _ _).setZN _).flags
  | cmpi => exact ((FrameExcept.refl s).setZNOC _).flags.mono znoc_subset_table
  | addi | add | sub => exact ((writeGp_frameExcept s _ _).setZNOC _).flags.mono znoc_subset_table
  | mul2 | div2 => exact ((writeGp_frameExcept s _ _).setZNC _ _).flags.mono znc_subset_table
  | _ => exact fun _ _ => rfl

/-- Settles O26: the frame for the table of R32, which for an empty row is the whole byte. -/
theorem flagsAreWrittenAsTabled : Obligations.FlagsAreWrittenAsTabled := by
  intro i s t h
  have hflags := (exec_eq_next_iff.1 h).flagsSameExcept
  cases i with
  | tsti | xor | or | add | addi | sub | cmpi | mul2 | div2 => exact hflags
  | _ => exact hflags.flags_eq

/-! ### Registers (R29) -/

/-- Settles O27: every register write goes through `writeGp`, at the tabled register. -/
theorem registersAreWrittenAsTabled : Obligations.RegistersAreWrittenAsTabled := by
  intro i s t h
  cases exec_eq_next_iff.1 h with
  | ldi | ldm => exact fun k hk => readGp_writeGp_ne s _ fun e => hk (congrArg Fin.val e).symm
  | mov | or | xor | add | sub | addi | mul2 | div2 => exact (writeGp_frameExcept s _ _).gp
  | _ => rfl

/-! ### Memory (R51, R59) -/

/-- Settles O28: only STM and CALL leave a state with a 16-bit write. -/
theorem memoryIsWrittenByStmAndCallOnly : Obligations.MemoryIsWrittenByStmAndCallOnly := by
  intro i s t h
  cases exec_eq_next_iff.1 h with
  | stm | call => exact memSameOutsideWord_writeWord s _ _
  | _ => exact fun _ => rfl

/-! ### No handler reads FLAGS (R32, R123) -/

theorem getFlag_setZN_congr (s s' : State) (res : Word) :
    ∀ w ∈ [Flag.z, Flag.n], getFlag (setZN s res) w = getFlag (setZN s' res) w := by
  simp [getFlag_setZN]

theorem getFlag_setZNOC_congr (s s' : State) (out : AluOut) (w : Flag) :
    getFlag (setZNOC s out) w = getFlag (setZNOC s' out) w := by
  simp [getFlag_setZNOC]

theorem getFlag_setZNC_congr (s s' : State) (res : Word) (carry : Bool) :
    ∀ w ∈ [Flag.c, Flag.z, Flag.n], getFlag (setZNC s res carry) w = getFlag (setZNC s' res carry) w := by
  simp [getFlag_setZNC]

/-- From another FLAGS byte a handler goes on to the same state but for FLAGS, and writes the same flags. -/
theorem Completes.otherFlags {i : Instr} {s t : State} (h : Completes i s t) (f : Byte) :
    ∃ g : Byte, Completes i { s with flags := f } { t with flags := g } ∧
      ∀ w ∈ flagsWritten i.mnemonic, g.getLsbD (flagBit w) = t.flags.getLsbD (flagBit w) := by
  cases h with
  | nop => exact ⟨f, .nop _, nofun⟩
  | jmp target => exact ⟨f, .jmp target _, nofun⟩
  | jTaken hc target => exact ⟨f, .jTaken hc target _, nofun⟩
  | jZero target => exact ⟨f, .jZero target _, nofun⟩
  | call hsp target => exact ⟨f, .call (s := { s with flags := f }) hsp target, nofun⟩
  | ret hsp => exact ⟨f, .ret (s := { s with flags := f }) hsp, nofun⟩
  | ldi hr imm => exact ⟨f, .ldi hr imm _, nofun⟩
  | ldm hr ha => exact ⟨f, .ldm hr ha _, nofun⟩
  | mov x y => exact ⟨f, .mov x y _, nofun⟩
  | stm hr ha => exact ⟨f, .stm hr ha _, nofun⟩
  | addi x imm => exact ⟨_, .addi x imm _, fun w _ => getFlag_setZNOC_congr _ _ _ w⟩
  | add x y => exact ⟨_, .add x y _, fun w _ => getFlag_setZNOC_congr _ _ _ w⟩
  | sub x y => exact ⟨_, .sub x y _, fun w _ => getFlag_setZNOC_congr _ _ _ w⟩
  | cmpi x imm => exact ⟨_, .cmpi x imm _, fun w _ => getFlag_setZNOC_congr _ _ _ w⟩
  | tsti hr imm => exact ⟨_, .tsti hr imm _, getFlag_setZN_congr _ _ _⟩
  | or x y => exact ⟨_, .or x y _, getFlag_setZN_congr _ _ _⟩
  | xor x y => exact ⟨_, .xor x y _, getFlag_setZN_congr _ _ _⟩
  | mul2 x y z => exact ⟨_, .mul2 x y z _, getFlag_setZNC_congr _ _ _ _⟩
  | div2 hy x z => exact ⟨_, .div2 (s := { s with flags := f }) hy x z, getFlag_setZNC_congr _ _ _ _⟩

/-- From another FLAGS byte a handler raises the same fault, and leaves that byte. -/
theorem Raises.otherFlags {i : Instr} {s u : State} {reason : FaultReason} (h : Raises i s reason u) (f : Byte) :
    Raises i { s with flags := f } reason { u with flags := f } := by
  cases h with
  | call hsp target => exact .call (s := { s with flags := f }) hsp target
  | ret hsp => exact .ret (s := { s with flags := f }) hsp
  | ldiIndex hr imm => exact .ldiIndex hr imm _
  | ldmIndex hr addr => exact .ldmIndex hr addr _
  | ldmAddr hr => exact .ldmAddr hr _
  | stmIndex hr addr => exact .stmIndex hr addr _
  | stmAddr hr => exact .stmAddr hr _
  | tstiIndex hr imm => exact .tstiIndex hr imm _
  | div2 hy x z => exact .div2 (s := { s with flags := f }) hy x z

/-- Settles O29: each relation holds again from the other byte, and the frame of R32 gives the bits not written. -/
theorem noInstructionReadsFlags : Obligations.NoInstructionReadsFlags := by
  intro i s f
  constructor
  · intro t h
    obtain ⟨g, hg, hwritten⟩ := (exec_eq_next_iff.1 h).otherFlags f
    exact ⟨g, hg.exec_eq, hwritten, hg.flagsSameExcept⟩
  · intro reason t h
    obtain ⟨u, hu, rfl⟩ := exec_eq_raised h
    exact (hu.otherFlags f).exec_eq

end Sys2Proof.Machine
end

section
/-! PROOFS. The encoding: the fields of a fetched word, decoding what was encoded, and the bits no format reads
(30_encoding.md). -/

namespace Sys2Proof

/-! ### The fields of a word as its bit ranges (R81, R83) -/

/-- A range of bits of a byte of the word is a range of bits of the word. -/
theorem extractLsb'_byte (w : Word32) {start len : Nat} (h : start + len ≤ 8) (at0 : Nat) :
    (w.extractLsb' at0 8).extractLsb' start len = w.extractLsb' (at0 + start) len := by
  apply BitVec.eq_of_getLsbD_eq
  intro k hk
  have hin : start + k < 8 := by omega
  simp [hk, hin, Nat.add_assoc]

theorem splitWord_x (w : Word32) : (splitWord w).x = (w.extractLsb' 8 4).toFin :=
  congrArg BitVec.toFin (extractLsb'_byte w (by decide) 8)

theorem splitWord_y (w : Word32) : (splitWord w).y = (w.extractLsb' 12 4).toFin :=
  congrArg BitVec.toFin (extractLsb'_byte w (by decide) 8)

theorem splitWord_z (w : Word32) : (splitWord w).z = (w.extractLsb' 16 4).toFin :=
  congrArg BitVec.toFin (extractLsb'_byte w (by decide) 16)

theorem splitWord_imm16 (w : Word32) : (splitWord w).imm16 = w.extractLsb' 16 16 :=
  BitVec.extractLsb'_append_extractLsb'_eq_extractLsb' rfl

theorem joinWord_splitWord (w : Word32) : joinWord (splitWord w) = w := by
  have hhalf : (splitWord w).param0 ++ (splitWord w).opcode = w.extractLsb' 0 16 :=
    BitVec.extractLsb'_append_extractLsb'_eq_extractLsb' rfl
  have hthree : (splitWord w).param1 ++ w.extractLsb' 0 16 = w.extractLsb' 0 24 :=
    BitVec.extractLsb'_append_extractLsb'_eq_extractLsb' rfl
  have hwhole : (splitWord w).param2 ++ w.extractLsb' 0 24 = w := BitVec.extractLsb'_append_extractLsb'
  simp only [joinWord, hhalf, hthree, hwhole]

/-! ### Decoding by the opcode byte (R87, R89) -/

theorem decodeRaw_of_opcode {m : OpcodeMap} (hm : m.Valid) {r : RawInstr} {k : Mnemonic} (h : r.opcode = m k) :
    decodeRaw m r = .ok (r.operands k) := by
  unfold decodeRaw
  rw [h, dispatchEntry_map hm]

/-- Settles O6: the table finds the operation, and its operands are the word's bit ranges. -/
theorem decodingReadsTheTabledFields : Obligations.DecodingReadsTheTabledFields := by
  intro m hm w k hop
  have hdecode : decodeWith m w = .ok ((splitWord w).operands k) := decodeRaw_of_opcode hm hop
  rw [hdecode]
  cases k <;> simp only [RawInstr.operands, splitWord_x, splitWord_y, splitWord_z, splitWord_imm16] <;> rfl

/-! ### Decoding what was encoded (R85) -/

/-- The family `EncodesOpcode`, over all instructions at once. -/
theorem encodeRaw_opcode (m : OpcodeMap) (i : Instr) : (encodeRaw m i).opcode = m i.mnemonic := by
  cases i <;> rfl

/-- The operand fields of an instruction's unit are its operands: nibbles and immediates come back from their packing. -/
theorem operands_encodeRaw (m : OpcodeMap) (i : Instr) : (encodeRaw m i).operands i.mnemonic = i := by
  cases i <;>
    simp only [encodeRaw, Instr.mnemonic, RawInstr.operands, RawInstr.x, RawInstr.y, RawInstr.z, RawInstr.imm16,
      lowNibble_packNibbles, highNibble_packNibbles, highByte_append_lowByte]

theorem decodeRaw_encodeRaw {m : OpcodeMap} (hm : m.Valid) (i : Instr) : decodeRaw m (encodeRaw m i) = .ok i := by
  rw [decodeRaw_of_opcode hm (encodeRaw_opcode m i), operands_encodeRaw]

/-- Settles O5: word and bytes both give back the instruction's unit, which decodes to the instruction. -/
theorem decodeOfEncodeIsTheInstruction : Obligations.DecodeOfEncodeIsTheInstruction := by
  intro m hm i
  have hword : decodeWith m (encodeWith m i) = decodeRaw m (encodeRaw m i) :=
    congrArg (decodeRaw m) (splitWord_joinWord (encodeRaw m i))
  have hbytes : decodeBytesWith m (encodeBytesWith m i) = decodeRaw m (encodeRaw m i) := rfl
  rw [hword, hbytes, decodeRaw_encodeRaw hm]
  exact ⟨rfl, rfl⟩

/-! ### The bits a format reads (R85, R87, R90) -/

/-- The unit with only the bits that `mask` selects. -/
def RawInstr.masked (r mask : RawInstr) : RawInstr :=
  ⟨r.opcode &&& mask.opcode, r.param0 &&& mask.param0, r.param1 &&& mask.param1, r.param2 &&& mask.param2⟩

theorem splitWord_and (w v : Word32) : splitWord (w &&& v) = (splitWord w).masked (splitWord v) := by
  simp only [splitWord, RawInstr.masked, BitVec.extractLsb'_and]

/-- The bits each format reads, byte by byte. -/
theorem splitWord_readMask (k : Mnemonic) : splitWord (readMask k) = match k with
    | .nop | .ret => ⟨0xFF, 0, 0, 0⟩
    | .jmp | .call => ⟨0xFF, 0, 0xFF, 0xFF⟩
    | .j | .ldi | .ldm | .stm | .tsti => ⟨0xFF, 0xFF, 0xFF, 0xFF⟩
    | .addi | .cmpi => ⟨0xFF, 0x0F, 0xFF, 0xFF⟩
    | .mov | .add | .sub | .or | .xor => ⟨0xFF, 0xFF, 0, 0⟩
    | .mul2 | .div2 => ⟨0xFF, 0xFF, 0x0F, 0⟩ := by
  cases k <;> decide

theorem byte_and_0xFF (b : Byte) : b &&& 0xFF = b := BitVec.and_allOnes

theorem byte_and_0 (b : Byte) : b &&& 0 = 0 := BitVec.and_zero

theorem byte_and_0x0F (b : Byte) : b &&& 0x0F = packNibbles 0 (lowNibble b) := by
  revert b
  decide

theorem packNibbles_highNibble_lowNibble (b : Byte) : packNibbles (highNibble b) (lowNibble b) = b :=
  BitVec.extractLsb'_append_extractLsb' (w := 4) (len := 4) (x := b)

theorem lowByte_imm16 (r : RawInstr) : lowByte r.imm16 = r.param1 := BitVec.extractLsb'_append_eq_right

theorem highByte_imm16 (r : RawInstr) : highByte r.imm16 = r.param2 := BitVec.extractLsb'_append_eq_left

/-- Encoding a unit's operands gives the unit back in the bits its format reads. -/
theorem encodeRaw_operands {m : OpcodeMap} {r : RawInstr} {k : Mnemonic} (h : m k = r.opcode) :
    encodeRaw m (r.operands k) = r.masked (splitWord (readMask k)) := by
  rw [splitWord_readMask]
  cases k <;>
    simp only [RawInstr.operands, encodeRaw, RawInstr.masked, h, RawInstr.x, RawInstr.y, RawInstr.z,
      packNibbles_highNibble_lowNibble, lowByte_imm16, highByte_imm16, byte_and_0xFF, byte_and_0, byte_and_0x0F]

/-- The operands come from the bits the format reads. -/
theorem operands_masked (r : RawInstr) (k : Mnemonic) :
    (r.masked (splitWord (readMask k))).operands k = r.operands k := by
  rw [splitWord_readMask]
  cases k <;>
    simp only [RawInstr.operands, RawInstr.masked, RawInstr.x, RawInstr.y, RawInstr.z, RawInstr.imm16,
      byte_and_0xFF, byte_and_0x0F, lowNibble_packNibbles]

theorem mnemonic_operands (r : RawInstr) (k : Mnemonic) : (r.operands k).mnemonic = k := by
  cases k <;> rfl

/-- What a word that decodes holds: an opcode byte with an operation in the table, and that operation's operands. -/
theorem decodeWith_ok {m : OpcodeMap} {w : Word32} {i : Instr} (h : decodeWith m w = .ok i) :
    dispatchEntry m (splitWord w).opcode = some i.mnemonic ∧ i = (splitWord w).operands i.mnemonic := by
  unfold decodeWith decodeRaw at h
  cases hk : dispatchEntry m (splitWord w).opcode with
  | none => rw [hk] at h; cases h
  | some k =>
    rw [hk] at h
    cases h
    rw [mnemonic_operands]
    exact ⟨rfl, rfl⟩

/-- Settles O7: encoding the operands masks the unit, as the mask does the word. -/
theorem decodedWordsReencodeToTheirReadBits : Obligations.DecodedWordsReencodeToTheirReadBits := by
  intro m _ w i h
  obtain ⟨hk, hi⟩ := decodeWith_ok h
  have hraw : encodeRaw m i = splitWord (w &&& readMask i.mnemonic) := by
    rw [splitWord_and, ← encodeRaw_operands (dispatchEntry_some hk), ← hi]
  unfold encodeWith
  rw [hraw, joinWord_splitWord]

/-- The opcode byte is among the bits every format reads. -/
theorem opcode_and_readMask (w : Word32) (k : Mnemonic) :
    (splitWord (w &&& readMask k)).opcode = (splitWord w).opcode := by
  rw [splitWord_and, splitWord_readMask]
  cases k <;> exact byte_and_0xFF (splitWord w).opcode

/-- Settles O8: the table's entry and the operands are those of the masked word. -/
theorem unreadBitsDoNotMatter : Obligations.UnreadBitsDoNotMatter := by
  intro m w v i h hwv
  obtain ⟨hk, hi⟩ := decodeWith_ok h
  have hop : (splitWord v).opcode = (splitWord w).opcode := by
    rw [← opcode_and_readMask v i.mnemonic, ← hwv, opcode_and_readMask]
  have hoperands : (splitWord v).operands i.mnemonic = i := by
    rw [← operands_masked, ← splitWord_and, ← hwv, splitWord_and, operands_masked, ← hi]
  unfold decodeWith decodeRaw
  rw [hop, hk]
  exact congrArg Except.ok hoperands

/-! ### Written-out words and the construction of a unit (R82, R86) -/

/-- Settles O9: each word is one closed evaluation of the default decoder. -/
theorem sampleWordsDecode : Obligations.SampleWordsDecode := by
  unfold Obligations.SampleWordsDecode
  decide

/-- Settles O10: the construction's match accepts the lists of three and no other. -/
theorem constructionNeedsThreeParameters : Obligations.ConstructionNeedsThreeParameters := by
  intro opcode ps
  match ps with
  | [p0, p1, p2] => exact ⟨fun _ => ⟨⟨opcode, p0, p1, p2⟩, rfl, rfl, rfl⟩, fun h => absurd rfl h⟩
  | [] | [_] | [_, _] => exact ⟨nofun, fun _ => rfl⟩
  | _ :: _ :: _ :: _ :: _ => exact ⟨fun h => by simp at h, fun _ => rfl⟩

end Sys2Proof
end

section
/-! PROOFS. The step: the decoded instruction it runs, its faults, and runs of many steps (40_fetch_cycle.md R100 to R109,
70_reset_and_hazards.md R238, R239). -/

namespace Sys2Proof.Machine

/-! ### The step of a decoded instruction (R100, R101) -/

/-- Decoding the four bytes at an address is decoding the word there (R80, R81). -/
theorem decodeBytesWith_bytesAt (m : OpcodeMap) (s : State) (a : Nat) :
    decodeBytesWith m [readByte s a, readByte s (a + 1), readByte s (a + 2), readByte s (a + 3)] =
      decodeWith m (word32At s.mem a) :=
  congrArg (decodeRaw m) (splitWord_word32At s.mem a).symm

theorem executeCycleWith_decoded {m : OpcodeMap} {s : State} {i : Instr} (hr : s.run = .running)
    (hp : s.pc.toNat ≤ 0xFFFC) (hd : decodeWith m (word32At s.mem s.pc.toNat) = .ok i) :
    executeCycleWith m s = countCycle s.cycles (exec i (setPc s (s.pc + 4))) := by
  rw [executeCycleWith_fetched hr hp, dispatchWord_ok hd]

/-- Settles O11: the fetched word decodes as its bytes do, and counting the cycle is a match on the handler's answer. -/
theorem stepRunsTheDecodedInstruction : Obligations.StepRunsTheDecodedInstruction := by
  intro m s i hr hp hd
  rw [decodeBytesWith_bytesAt] at hd
  rw [executeCycleWith_decoded hr (by omega) hd]
  rfl

/-! ### The faults of the fetch and of the dispatch (R102, R105, R109) -/

/-- Settles O12: the table is empty at the fetched opcode byte, so the dispatch raises after the advance of `PC`. -/
theorem unimplementedOpcodeIsFatal : Obligations.UnimplementedOpcodeIsFatal := by
  intro m s hr hp hop
  have hbyte : (splitWord (word32At s.mem s.pc.toNat)).opcode = readByte s s.pc.toNat := by
    rw [splitWord_word32At]
    rfl
  rcases decodeWith_cases m (word32At s.mem s.pc.toNat) with ⟨k, hk, -⟩ | ⟨-, hd⟩
  · exact absurd (hk.trans hbyte) (hop k)
  · rw [executeCycleWith_fetched hr (by omega), dispatchWord_error hd, hbyte]
    exact ⟨_, rfl, faultedState_leftBy _ _⟩

/-- Settles O13: above 0xFFFC the fetch raises; at 0xFFFC it is the step of O11, its `PC` advanced to 0. -/
theorem fetchPastMemoryIsFatal : Obligations.FetchPastMemoryIsFatal := by
  intro m s hr
  constructor
  · intro hpc
    have hp : ¬ s.pc.toNat ≤ 0xFFFC := not_le.2 ((above_0xFFFC_iff s.pc).2 hpc)
    rw [executeCycleWith_unfetched hr hp]
    exact ⟨_, rfl, faultedState_leftBy _ s⟩
  · intro i hpc hd
    have hstep := stepRunsTheDecodedInstruction m s i hr (by rw [hpc]; decide) (by rw [hpc]; exact hd)
    rwa [hpc] at hstep

/-- Settles O14: the step and the two moves look at `RUN` first. -/
theorem faultedMachineMakesNoStep : Obligations.FaultedMachineMakesNoStep := by
  intro s reason hr
  refine ⟨fun m => ?_, fun _ _ => whileRunning_faulted hr _, fun _ => whileRunning_faulted hr _⟩
  unfold executeCycleWith
  rw [hr]

/-- Settles O21: the register-file steps as bit-vector sums. -/
theorem pcAndSpStepsWrap : Obligations.PcAndSpStepsWrap := fun s =>
  ⟨incrementPc_eq s, incrementSp_eq s, decrementSp_eq s⟩

/-! ### `RUN` and `CYCLES` after a step (R35, R36, R238) -/

/-- A step that goes on counts one. -/
theorem executeCycleWith_cycles {m : OpcodeMap} {s t : State} (h : executeCycleWith m s = .next t) :
    t.cycles = s.cycles + 1 := by
  obtain ⟨-, -, i, u, -, -, rfl⟩ := executeCycleWith_next h
  rfl

theorem runStepsWith_cycles (m : OpcodeMap) (k : Nat) {s t : State} (h : runStepsWith m k s = .next t) :
    t.cycles = s.cycles + k := by
  induction k generalizing s with
  | zero => cases h; rfl
  | succ k ih =>
    rw [runStepsWith_succ] at h
    obtain ⟨u, hu, ht⟩ := andThen_eq_next h
    rw [ih ht, executeCycleWith_cycles hu, Nat.add_assoc, Nat.add_comm 1 k]

/-- Settles O15: a step that goes on ran the decoded instruction and counted once, and a run of `k` steps adds up. -/
theorem cyclesCountExecutedSteps : Obligations.CyclesCountExecutedSteps := by
  refine ⟨fun m s t h => ?_, fun m k s t => runStepsWith_cycles m k⟩
  obtain ⟨-, -, i, u, hd, hu, ht⟩ := executeCycleWith_next h
  exact ⟨i, u, (decodeBytesWith_bytesAt m s _).trans hd, hu, ht⟩

/-- No line before a raise changes `CYCLES`. -/
theorem Raises.cycles {i : Instr} {s u : State} {reason : FaultReason} (h : Raises i s reason u) :
    u.cycles = s.cycles := by
  cases h <;> rfl

/-- The state a step's fault is raised in: as the fetch found it, as the dispatch found it, or as the handler left it. -/
theorem executeCycleWith_raisedIn {m : OpcodeMap} {s t : State} {reason : FaultReason}
    (h : executeCycleWith m s = .fault (.raised reason t)) :
    ∃ u, t = faultedState reason u ∧
      (u = s ∨ u = setPc s (s.pc + 4) ∨ ∃ i, Raises i (setPc s (s.pc + 4)) reason u) := by
  obtain ⟨-, ⟨-, ht⟩ | ⟨_, -, ht⟩ | ⟨i, hf⟩⟩ := executeCycleWith_raised h
  · exact ⟨_, ht, .inl rfl⟩
  · exact ⟨_, ht, .inr (.inl rfl)⟩
  · obtain ⟨u, hu, ht⟩ := exec_eq_raised hf
    exact ⟨u, ht, .inr (.inr ⟨i, hu⟩)⟩

/-- Settles O16: no handler writes `RUN`, and every raise marks it with its reason. -/
theorem faultsAndOnlyFaultsEndTheRun : Obligations.FaultsAndOnlyFaultsEndTheRun := by
  intro m s
  constructor
  · intro t h
    obtain ⟨hr, -, i, u, -, hu, rfl⟩ := executeCycleWith_next h
    exact ⟨hr, (exec_eq_next_iff.1 hu).restSame.run.trans hr⟩
  · intro reason t h
    obtain ⟨u, rfl, hu⟩ := executeCycleWith_raisedIn h
    have hcycles : u.cycles = s.cycles := by
      rcases hu with rfl | rfl | ⟨i, hraise⟩
      · rfl
      · rfl
      · exact hraise.cycles
    exact ⟨(executeCycleWith_raised h).1, rfl, hcycles ▸ faultedState_cycles reason u⟩

/-! ### When one step is safe (R100, R203 to R205) -/

theorem runsSafely_one_iff (s : State) : RunsSafely 1 s ↔ ∃ t, step s = .next t := by
  have hone : runSteps 1 s = step s := by
    rw [runSteps_succ]
    cases step s <;> rfl
  unfold RunsSafely
  rw [hone]

/-- Settles O18: O22 for the instruction that the step decodes. -/
theorem stepIsSafeExactlyWhen : Obligations.StepIsSafeExactlyWhen := by
  intro s
  simp only [runsSafely_one_iff, decodeBytesWith_bytesAt]
  constructor
  · rintro ⟨t, h⟩
    obtain ⟨hr, hp, i, u, hd, hu, -⟩ := executeCycleWith_next h
    exact ⟨hr, hp, i, hd, (exec_eq_next_iff.1 hu).canComplete⟩
  · rintro ⟨hr, hp, i, hd, hcan⟩
    obtain ⟨u, hu⟩ := (instructionsCompleteExactlyWhen i (setPc s (s.pc + 4))).2 hcan
    refine ⟨{ u with cycles := s.cycles + 1 }, ?_⟩
    unfold step
    rw [executeCycleWith_decoded hr hp hd, hu]
    rfl

/-! ### Runs without end (R120, R239) -/

/-- At a normal end a step counts a cycle and changes nothing else. -/
theorem step_atNormalEnd {s : State} (h : AtNormalEnd s) : step s = .next { s with cycles := s.cycles + 1 } := by
  obtain ⟨hr, w, hw, hd⟩ := h
  have hp : s.pc.toNat ≤ 0xFFFC := by
    by_contra hp
    rw [getPc_eq, read32_unfetched hp] at hw
    cases hw
  rw [getPc_eq, read32_fetched hp] at hw
  cases hw
  unfold step
  rw [executeCycleWith_decoded hr hp hd]
  rfl

/-- Settles O19: a normal end is one again after the step, whatever `CYCLES` is. -/
theorem normalEndRepeatsForever : Obligations.NormalEndRepeatsForever := by
  intro k
  induction k with
  | zero => exact fun _ _ => rfl
  | succ k ih =>
    intro s h
    have hagain : AtNormalEnd { s with cycles := s.cycles + 1 } := h
    rw [runSteps_succ, step_atNormalEnd h, andThen_next, ih _ hagain]
    simp only [Nat.add_assoc, Nat.add_comm 1 k]

/-- A step on four zero bytes is a NOP (R120). -/
theorem step_zeroMemory {s : State} (hr : s.run = .running) (hzero : ∀ a, readByte s a = 0x00)
    (hp : s.pc.toNat ≤ 0xFFFC) :
    step s = .next { s with pc := s.pc + 4, cycles := s.cycles + 1 } := by
  have hd : decodeWith defaultOpcodeMap (word32At s.mem s.pc.toNat) = .ok .nop := by
    rw [← decodeBytesWith_bytesAt, hzero, hzero, hzero, hzero]
    decide
  unfold step
  rw [executeCycleWith_decoded hr hp hd]
  rfl

/-- Settles O20: a `PC` that is a multiple of 4 is never past 0xFFFC, and stays one. -/
theorem zeroMemoryRunsAsNops : Obligations.ZeroMemoryRunsAsNops := by
  intro k
  induction k with
  | zero => intro s _ _ _; simp
  | succ k ih =>
    intro s hr hzero hmod
    have hp : s.pc.toNat ≤ 0xFFFC := by have := s.pc.isLt; omega
    have hmod' : (s.pc + 4).toNat % 4 = 0 := by bv_omega
    have hsum : s.pc + 4 + BitVec.ofNat 16 (4 * k) = s.pc + BitVec.ofNat 16 (4 * (k + 1)) := by bv_omega
    rw [runSteps_succ, step_zeroMemory hr hzero hp, andThen_next,
      ih { s with pc := s.pc + 4, cycles := s.cycles + 1 } hr hzero hmod', hsum]
    simp only [Nat.add_assoc, Nat.add_comm 1 k]

end Sys2Proof.Machine
end

section
/-! PROOFS. The invariant: canonical memory and reserved FLAGS bits zero, in every reachable state (10_state.md R30,
20_memory.md R51). -/

namespace Sys2Proof.Machine

/-! ### Construction -/

/-- Settles O2: memory starts with nothing listed, and no draw meets a reserved bit. -/
theorem resetStatesMeetTheInvariant : Obligations.ResetStatesMeetTheInvariant := fun d =>
  ⟨Memory.wf_nil, d.flags_reserved⟩

/-! ### One step -/

/-- The invariant is about memory and FLAGS alone. -/
theorem State.Inv.congr {s t : State} (hs : s.Inv) (hmem : t.mem = s.mem) (hflags : t.flags = s.flags) : t.Inv :=
  ⟨hmem ▸ hs.mem, hflags ▸ hs.flags⟩

theorem Completes.wf_mem {i : Instr} {s t : State} (h : Completes i s t) (hs : Memory.wf s.mem) : Memory.wf t.mem := by
  cases h with
  | call hsp => exact wf_writeWord hs ((inRange_two s.sp).2 hsp) s.pc
  | stm hr ha => exact wf_writeWord hs ((inRange_two _).2 ha) _
  | _ => exact hs

theorem Completes.inv {i : Instr} {s t : State} (h : Completes i s t) (hs : s.Inv) : t.Inv :=
  ⟨h.wf_mem hs.mem, h.flagsSameExcept.reserved.trans hs.flags⟩

/-- A raise leaves memory as it was, or with the partial write of R56. -/
theorem Raises.inv {i : Instr} {s u : State} {reason : FaultReason} (h : Raises i s reason u) (hs : s.Inv) : u.Inv := by
  cases h with
  | call | stmAddr => exact ⟨wf_partialWrite hs.mem _ _, hs.flags⟩
  | _ => exact hs.congr rfl rfl

theorem inv_of_next {m : OpcodeMap} {s t : State} (hs : s.Inv) (h : executeCycleWith m s = .next t) : t.Inv := by
  obtain ⟨-, -, i, u, -, hu, rfl⟩ := executeCycleWith_next h
  exact ((exec_eq_next_iff.1 hu).inv (hs.congr rfl rfl)).congr rfl rfl

theorem inv_of_raised {m : OpcodeMap} {s t : State} {reason : FaultReason} (hs : s.Inv)
    (h : executeCycleWith m s = .fault (.raised reason t)) : t.Inv := by
  obtain ⟨u, rfl, rfl | rfl | ⟨i, hraise⟩⟩ := executeCycleWith_raisedIn h
  · exact hs.congr rfl rfl
  · exact hs.congr rfl rfl
  · exact (hraise.inv (hs.congr rfl rfl)).congr rfl rfl

/-! ### The host's moves -/

theorem inv_of_fillMemory {bytes : List Byte} {start : Word} {s t : State} (hs : s.Inv)
    (h : fillMemory bytes start s = .ok t) : t.Inv := by
  have hmem := wf_fillMemory hs.mem h
  obtain ⟨-, -, rfl⟩ := fillMemory_ok h
  exact ⟨hmem, hs.flags⟩

theorem inv_of_driverSetPc {start : Word} {s t : State} (hs : s.Inv) (h : driverSetPc start s = .ok t) : t.Inv := by
  obtain ⟨-, rfl⟩ := driverSetPc_ok h
  exact hs.congr rfl rfl

/-- Settles O3: the steps of any opcode map, the default one among them, and the two moves. -/
theorem everyStepKeepsTheInvariant : Obligations.EveryStepKeepsTheInvariant := by
  intro s hs
  exact ⟨fun _ => inv_of_next hs, fun _ => ⟨fun _ => inv_of_next hs, fun _ _ => inv_of_raised hs⟩,
    fun _ _ _ => inv_of_fillMemory hs, fun _ _ => inv_of_driverSetPc hs⟩

/-! ### Every reachable state -/

/-- Settles O4: by induction on how the state is reached; the graphics state of a step's outcome is O17's. -/
theorem reachableStatesMeetTheInvariant : Obligations.ReachableStatesMeetTheInvariant := by
  intro m d s hreach
  induction hreach with
  | construct => exact ⟨resetStatesMeetTheInvariant d, rfl⟩
  | step _ h ih =>
    exact ⟨inv_of_next ih.1 h, ((noStepReachesTheGraphicsProcessor m _).1 _ h).trans ih.2⟩
  | fault _ h ih =>
    exact ⟨inv_of_raised ih.1 h, ((noStepReachesTheGraphicsProcessor m _).2 _ _ h).1.trans ih.2⟩
  | fill _ h ih =>
    refine ⟨inv_of_fillMemory ih.1 h, ?_⟩
    obtain ⟨-, -, rfl⟩ := fillMemory_ok h
    exact ih.2
  | handOver _ h ih =>
    refine ⟨inv_of_driverSetPc ih.1 h, ?_⟩
    obtain ⟨-, rfl⟩ := driverSetPc_ok h
    exact ih.2

end Sys2Proof.Machine
end

section
/-! PROOFS. The memory bus, the FLAGS view, the graphics call and the host's moves (20_memory.md, 10_state.md R30 and R31,
60_exceptions.md R218). -/

namespace Sys2Proof.Machine

/-! ### Writing and reading 16 bits (R53 to R57) -/

theorem write16_inRange {a : Word} (h : a ≠ 0xFFFF) (s : State) (v : Word) : write16 s a v = .next (writeWord s a v) :=
  if_pos ((inRange_two a).2 h)

theorem read16_inRange {a : Word} (h : a ≠ 0xFFFF) (s : State) : read16 s a = some (wordAt s.mem a.toNat) :=
  if_pos ((inRange_two a).2 h)

/-- Settles O52: the low half of the 32-bit value is the written word, the high half the word two bytes above it. -/
theorem writeThenReadGivesTheValue : Obligations.WriteThenReadGivesTheValue := by
  intro s a v ha
  refine ⟨writeWord s a v, write16_inRange ha s v, ?_, memSameOutsideWord_writeWord s a v, fun hle => ?_⟩
  · rw [read16_inRange ha, wordAt_writeWord]
  · have habove : a + 2 ≠ 0xFFFF := by bv_omega
    have hnat : (a + 2).toNat = a.toNat + 2 := by bv_omega
    refine ⟨wordAt s.mem (a.toNat + 2), ?_, ?_⟩
    · rw [read16_inRange habove, hnat]
    · rw [read32_fetched hle, word32At_eq, wordAt_writeWord_above, wordAt_writeWord]

/-! ### FLAGS (R30, R31) -/

/-- Settles O53: a setter on top of the empty frame. -/
theorem flagSettersTouchOneBit : Obligations.FlagSettersTouchOneBit := fun s f b =>
  ⟨getFlag_setFlag_self s f b, (FrameExcept.refl s).setFlag f b⟩

theorem readFlags_getLsbD (s : State) {k : Nat} (hk : k < 8) :
    (readFlags s).getLsbD k = (s.flags.getLsbD k && !reservedFlagBits.getLsbD k) := by
  simp [readFlags, hk]

/-- The mask keeps a defined flag's bit. -/
theorem readFlags_flagBit (s : State) (f : Flag) : (readFlags s).getLsbD (flagBit f) = getFlag s f := by
  have hdefined : reservedFlagBits.getLsbD (flagBit f) = false := by cases f <;> decide
  rw [readFlags_getLsbD s (flagBit_lt f), hdefined, Bool.not_false, Bool.and_true]
  rfl

theorem readFlags_reserved (s : State) : readFlags s &&& reservedFlagBits = 0 := by
  have hdisjoint : ~~~reservedFlagBits &&& reservedFlagBits = 0 := by decide
  rw [readFlags, BitVec.and_assoc, hdisjoint]
  exact BitVec.and_zero

theorem readFlags_of_inv {s : State} (hs : s.Inv) : readFlags s = s.flags := by
  have hsplit : s.flags &&& (~~~reservedFlagBits ||| reservedFlagBits) = s.flags := BitVec.and_allOnes
  rw [BitVec.and_or_distrib_left, hs.flags] at hsplit
  exact BitVec.or_zero.symm.trans hsplit

/-- Settles O54: each flag at its own bit, and the reserved bits masked. -/
theorem driverReadsTheFlags : Obligations.DriverReadsTheFlags := fun s =>
  ⟨⟨readFlags_flagBit s .c, readFlags_flagBit s .z, readFlags_flagBit s .o, readFlags_flagBit s .n⟩,
    ⟨rfl, rfl, rfl, rfl⟩, readFlags_reserved s, readFlags_of_inv⟩

/-! ### Faults, with the state they leave (R201, R56) -/

theorem fault_leftBy {r : Result} {reason : FaultReason} {u : State} (h : r = raiseFault reason u) :
    ∃ t, r = .fault (.raised reason t) ∧ LeftBy reason u t :=
  ⟨faultedState reason u, h, faultedState_leftBy reason u⟩

theorem fault_leftByPartialWrite {r : Result} {s : State} {v : Word}
    (h : r = raiseFault (.memoryOutOfRange 0xFFFF 2) (partialWrite s 0xFFFF v)) :
    ∃ t, r = .fault (.raised (.memoryOutOfRange 0xFFFF 2) t) ∧ LeftByPartialWrite v s t := by
  refine ⟨_, h, ⟨rfl, rfl, rfl, rfl, rfl, rfl, faultedState_cycles _ (partialWrite s 0xFFFF v)⟩, ?_, fun a ha => ?_⟩
  · exact (readByte_partialWrite s 0xFFFF v 0xFFFF).imp id And.right
  · exact (readByte_partialWrite s 0xFFFF v a).resolve_right fun hlow => ha hlow.1

/-! ### The graphics call, the fill, the hand-over and the diagnostic read (R62, R64, R218, R233) -/

/-- Settles O55: each field of the view is a field of the state. -/
theorem diagnosticsShowTheState : Obligations.DiagnosticsShowTheState := fun _ =>
  ⟨rfl, rfl, rfl, fun _ => rfl, rfl, fun _ => rfl⟩

/-- Settles O56: one answer per command, the third of them a raise in the state as it stands. -/
theorem acceptCommandActsOnSprAlone : Obligations.AcceptCommandActsOnSprAlone := fun _ _ =>
  ⟨rfl, rfl, fault_leftBy rfl⟩

theorem fillMemory_inRange {bytes : List Byte} {start : Word} {s : State} (hr : s.run = .running)
    (h : start.toNat + bytes.length ≤ 65536) :
    fillMemory bytes start s = .ok { s with mem := Memory.writeBytes s.mem start.toNat bytes } :=
  (whileRunning_running hr _).trans (if_neg (not_lt.2 h))

theorem fillMemory_outOfRange {bytes : List Byte} {start : Word} {s : State} (hr : s.run = .running)
    (h : 65536 < start.toNat + bytes.length) : fillMemory bytes start s = .error (.callError .outOfRange) :=
  (whileRunning_running hr _).trans (if_pos h)

/-- Settles O57: a read after writing bytes at rising addresses, inside them and outside. -/
theorem fillMemoryCopiesTheBytes : Obligations.FillMemoryCopiesTheBytes := by
  intro bytes start s hr
  refine ⟨fun hin => ⟨_, fillMemory_inRange hr hin, fun k hk => ?_, fun a ha => ?_, rfl, rfl, rfl, rfl, rfl, rfl, rfl⟩,
    fillMemory_outOfRange hr⟩
  · have hidx : start.toNat ≤ start.toNat + k ∧ start.toNat + k - start.toNat < bytes.length := by omega
    refine (Memory.read_writeBytes s.mem start.toNat (start.toNat + k) bytes).trans ((dif_pos hidx).trans ?_)
    simp only [Nat.add_sub_cancel_left]
  · have hidx : ¬ (start.toNat ≤ a ∧ a - start.toNat < bytes.length) := by omega
    exact (Memory.read_writeBytes s.mem start.toNat a bytes).trans (dif_neg hidx)

/-- Settles O58: while the run is on, the hand-over is `setPc`. -/
theorem driverSetPcHandsOverTheStart : Obligations.DriverSetPcHandsOverTheStart := fun _ _ hr =>
  whileRunning_running hr _

end Sys2Proof.Machine
end

section
/-! PROOFS. The instructions that use the stack or name a register by a whole byte: CALL, RET, LDI, LDM, STM and TSTI
(41_control_transfer.md, 42_data_movement.md, 43_alu_and_flags.md section 2). -/

namespace Sys2Proof.Machine

theorem readByte_writeWord_low (s : State) (a v : Word) : readByte (writeWord s a v) a.toNat = lowByte v := by
  rw [readByte_writeWord, if_neg (by omega), if_pos rfl]

theorem readByte_writeWord_high (s : State) (a v : Word) : readByte (writeWord s a v) (a.toNat + 1) = highByte v := by
  rw [readByte_writeWord, if_pos rfl]

/-! ### CALL and RET (R124, R127, R129) -/

/-- Settles O33: the state CALL leaves is a 16-bit write with `SP` and `PC` set, and its fault the partial write. -/
theorem callPushesAndJumps : Obligations.CallPushesAndJumps := by
  intro target s
  constructor
  · intro hsp
    exact ⟨_, exec_call hsp target, readByte_writeWord_low s s.sp s.pc, readByte_writeWord_high s s.sp s.pc, rfl, rfl,
      memSameOutsideWord_writeWord s s.sp s.pc, rfl, rfl, rfl, rfl, rfl⟩
  · intro hsp
    exact fault_leftByPartialWrite (exec_call_fault hsp target)

/-- Settles O34: the state RET leaves has `SP` and `PC` set, and its fault comes after the step of `SP`. -/
theorem retPopsIntoPc : Obligations.RetPopsIntoPc := by
  intro s
  constructor
  · intro hsp
    exact ⟨_, exec_ret hsp, rfl, rfl, fun _ => rfl, rfl, rfl, rfl, rfl, rfl⟩
  · intro hsp
    exact fault_leftBy (exec_ret_fault hsp)

/-- Settles O35: CALL's `SP` is never 0x0001, so RET goes on, and reads back the word CALL wrote. -/
theorem callThenRetReturns : Obligations.CallThenRetReturns := by
  intro target s t u hcall hsp hlow hhigh
  cases exec_eq_next_iff.1 hcall with
  | call hs =>
    have hu : u.sp = s.sp + 2 := hsp
    have hback : u.sp - 2 = s.sp := by rw [hu, BitVec.add_sub_cancel]
    have hret : u.sp ≠ 0x0001 := fun h => hs (hback.symm.trans ((sp_sub_two u.sp).2 h))
    have hpushed : wordAt u.mem (u.sp - 2).toNat = s.pc := by
      rw [hback]
      exact (congrArg₂ (· ++ ·) hhigh hlow).trans (wordAt_writeWord s s.sp s.pc)
    exact ⟨_, exec_ret hret, hpushed, hback, fun _ => rfl, rfl, rfl, rfl, rfl, rfl⟩

/-! ### The instructions with a whole-byte index (R28, R140 to R142, R170) -/

/-- A byte that equals a register's number is below 16, and names that register. -/
theorem byte_names_register {r : Byte} {k : RegIdx} (h : r.toNat = k.val) : ∃ hr : r.toNat < 16, ⟨r.toNat, hr⟩ = k :=
  ⟨h ▸ k.isLt, Fin.ext h⟩

/-- Settles O36: one register write, or the index fault. -/
theorem ldiLoadsTheImmediate : Obligations.LdiLoadsTheImmediate := by
  intro r imm s
  refine ⟨fun k hk => ?_, fun hr => fault_leftBy (exec_ldi_fault hr imm s)⟩
  obtain ⟨hr, rfl⟩ := byte_names_register hk
  exact ⟨_, exec_ldi hr imm s, readGp_writeGp_self s _ imm, writeGp_frameExcept s _ imm⟩

/-- Settles O37: one register write of the word at the address, or one of the two faults. -/
theorem ldmLoadsTheWordAtTheAddress : Obligations.LdmLoadsTheWordAtTheAddress := by
  intro r addr s
  refine ⟨fun k hk ha => ?_, ?_, fun hr => fault_leftBy (exec_ldm_index_fault hr addr s)⟩
  · obtain ⟨hr, rfl⟩ := byte_names_register hk
    exact ⟨_, exec_ldm hr ha s, readGp_writeGp_self s _ _, writeGp_frameExcept s _ _⟩
  · rintro hr rfl
    exact fault_leftBy (exec_ldm_fault hr s)

/-- Settles O38: one 16-bit write of the register, or the partial write's fault, or the index fault. -/
theorem stmStoresTheRegister : Obligations.StmStoresTheRegister := by
  intro r addr s
  refine ⟨fun k hk ha => ?_, ?_, fun hr => fault_leftBy (exec_stm_index_fault hr addr s)⟩
  · obtain ⟨hr, rfl⟩ := byte_names_register hk
    exact ⟨_, exec_stm hr ha s, readByte_writeWord_low s addr _, readByte_writeWord_high s addr _,
      memSameOutsideWord_writeWord s addr _, ⟨rfl, rfl, rfl, rfl, rfl⟩, rfl, rfl⟩
  · rintro k hk rfl
    obtain ⟨hr, rfl⟩ := byte_names_register hk
    exact fault_leftByPartialWrite (exec_stm_fault hr s)

/-- Settles O40: Z and N of the masked register on the state as it stands, or the index fault. -/
theorem tstiSetsZeroAndNegative : Obligations.TstiSetsZeroAndNegative := by
  intro r imm s
  refine ⟨fun k hk => ?_, fun hr => fault_leftBy (exec_tsti_fault hr imm s)⟩
  obtain ⟨hr, rfl⟩ := byte_names_register hk
  refine ⟨_, exec_tsti hr imm s, ?_, getFlag_setZN s _ .n, (FrameExcept.refl s).setZN _⟩
  rw [getFlag_setZN, zf_iff]

end Sys2Proof.Machine
end

section
/-! PROOFS. The overflow test against signed overflow, and multiply and divide (43_alu_and_flags.md R169, R177 to R179). -/

namespace Sys2Proof.Machine

/-! ### The overflow test (R164, R169) -/

theorem toInt_range (a : Word) : -32768 ≤ a.toInt ∧ a.toInt < 32768 :=
  ⟨BitVec.le_toInt a, BitVec.toInt_lt⟩

theorem eq_0x8000_iff (a : Word) : a = 0x8000 ↔ a.toInt = -32768 := BitVec.toInt_inj.symm

/-- The signed sum of two words leaves the 16-bit range by at most one turn. -/
theorem toInt_add_cases (a b : Word) :
    (-32768 ≤ a.toInt + b.toInt ∧ a.toInt + b.toInt ≤ 32767 ∧ (a + b).toInt = a.toInt + b.toInt) ∨
      (32767 < a.toInt + b.toInt ∧ (a + b).toInt = a.toInt + b.toInt - 65536) ∨
      (a.toInt + b.toInt < -32768 ∧ (a + b).toInt = a.toInt + b.toInt + 65536) := by
  have ha := toInt_range a
  have hb := toInt_range b
  rw [BitVec.toInt_add, Int.bmod_def]
  omega

/-- The signed difference of two words leaves the 16-bit range by at most one turn. -/
theorem toInt_sub_cases (a b : Word) :
    (-32768 ≤ a.toInt - b.toInt ∧ a.toInt - b.toInt ≤ 32767 ∧ (a - b).toInt = a.toInt - b.toInt) ∨
      (32767 < a.toInt - b.toInt ∧ (a - b).toInt = a.toInt - b.toInt - 65536) ∨
      (a.toInt - b.toInt < -32768 ∧ (a - b).toInt = a.toInt - b.toInt + 65536) := by
  have ha := toInt_range a
  have hb := toInt_range b
  rw [BitVec.toInt_sub, Int.bmod_def]
  omega

/-- Settles O47: a sum out of range turns once, to the other strict sign, but for 0x8000 + 0x8000, which turns to 0. -/
theorem addOverflowIsSignedOverflowButOnce : Obligations.AddOverflowIsSignedOverflowButOnce := by
  intro a b
  have ha := toInt_range a
  have hb := toInt_range b
  have hsum := toInt_add_cases a b
  rw [addF_eq, ov_iff, eq_0x8000_iff, eq_0x8000_iff]
  omega

/-- Settles O48: operands of one strict sign have their difference in range, and an overflow needs two signs. -/
theorem subOverflowIsNotSignedOverflow : Obligations.SubOverflowIsNotSignedOverflow := by
  intro a b
  have ha := toInt_range a
  have hb := toInt_range b
  have hdiff := toInt_sub_cases a b
  rw [← Bool.not_eq_true, subF_eq, ov_iff]
  omega

/-! ### The flags of a multiply or divide -/

@[simp] theorem readGp_setZNC (s : State) (res : Word) (carry : Bool) (i : RegIdx) :
    readGp (setZNC s res carry) i = readGp s i := readGp_congr (setZNC_gp s res carry) i

/-- The shared lines of MUL2 and DIV2: the result in `GP[z]`, Z and N from it, C as given, all else unchanged. -/
theorem mulDivInto_spec (z : RegIdx) (res : Word) (carry : Bool) (s : State) : ∃ t,
    mulDivInto z res carry s = .next t ∧ readGp t z = res ∧ (getFlag t .z = true ↔ res = 0) ∧
    getFlag t .n = res.getLsbD 15 ∧ getFlag t .c = carry ∧ FrameExcept [z] [.z, .n, .c] s t := by
  refine ⟨setZNC (writeGp s z res) res carry, rfl, ?_, ?_, getFlag_setZNC _ res carry .n, getFlag_setZNC _ res carry .c,
    (writeGp_frameExcept s z res).setZNC res carry⟩
  · rw [readGp_setZNC, readGp_writeGp_self]
  · rw [getFlag_setZNC, zf_iff]

/-! ### MUL2 (R177, R179) -/

/-- The low half of the signed product is the machine word's own product. -/
theorem mulRes_eq (a b : Word) : mulRes a b = a * b := by
  simp only [mulRes, trunc16, product, BitVec.ofInt_mul, BitVec.ofInt_toInt]

theorem mul2Carry_of_zero {a b : Word} (h : a.toInt * b.toInt = 0) : mul2Carry a b = false := if_pos h

theorem mul2Carry_of_small {a b : Word} (ha : 0 ≤ a.toInt) (hb : 0 ≤ b.toInt) (h : a.toInt * b.toInt ≤ 0x7FFF) :
    mul2Carry a b = false := by
  unfold mul2Carry product
  split
  · rfl
  · exact if_pos ⟨ha, hb, h⟩

theorem mul2Carry_of_large {a b : Word} (ha : 0 ≤ a.toInt) (hb : 0 ≤ b.toInt) (h : a.toInt * b.toInt > 0xFFFF) :
    mul2Carry a b = true := by
  unfold mul2Carry product
  rw [if_neg (by omega), if_neg (by omega), if_pos ⟨ha, hb, h⟩]

theorem exec_mul2 (x y z : RegIdx) (s : State) :
    exec (.mul2 x y z) s = mulDivInto z (readGp s x * readGp s y) (mul2Carry (readGp s x) (readGp s y)) s := by
  rw [← mulRes_eq]
  rfl

/-- Settles O49: the shared lines, with the three settled rows of the carry function. -/
theorem mul2WritesProductAndFlags : Obligations.Mul2WritesProductAndFlags := by
  intro x y z s
  obtain ⟨t, hnext, hres, hz, hn, hc, hframe⟩ :=
    mulDivInto_spec z (readGp s x * readGp s y) (mul2Carry (readGp s x) (readGp s y)) s
  exact ⟨t, (exec_mul2 x y z s).trans hnext, hres, hz, hn, hc, fun h => hc.trans (mul2Carry_of_zero h),
    fun ha hb h => hc.trans (mul2Carry_of_small ha hb h), fun ha hb h => hc.trans (mul2Carry_of_large ha hb h), hframe⟩

/-! ### DIV2 (R178) -/

/-- The remainder the carry tests is that of the truncated division. -/
theorem divCarry_iff (a b : Word) : divCarry a b = true ↔ a.toInt.tmod b.toInt ≠ 0 := by
  unfold divCarry
  rw [decide_eq_true_iff, ← Int.tmod_def]

/-- The truncated remainder is smaller than the divisor and has the dividend's sign. -/
theorem tmod_bounds (a : Int) {b : Int} (hb : b ≠ 0) :
    |a.tmod b| < |b| ∧ (a.tmod b > 0 → a > 0) ∧ (a.tmod b < 0 → a < 0) := by
  have hnonneg : 0 ≤ a → 0 ≤ a.tmod b ∧ a.tmod b < b.natAbs := fun ha =>
    ((Int.tdiv_tmod_unique ha hb).1 ⟨rfl, rfl⟩).2
  have hnonpos : a ≤ 0 → -(b.natAbs : Int) < a.tmod b ∧ a.tmod b ≤ 0 := fun ha =>
    ((Int.tdiv_tmod_unique' ha hb).1 ⟨rfl, rfl⟩).2
  rw [abs_lt, Int.abs_eq_natAbs]
  omega

/-- Settles O50: `q` and `r` are the truncated quotient and its remainder. -/
theorem div2WritesQuotientAndFlags : Obligations.Div2WritesQuotientAndFlags := by
  intro x y z s
  refine ⟨fun hy => ?_, fun hy => fault_leftBy (exec_div2_fault hy x z)⟩
  have hy' : (readGp s y).toInt ≠ 0 := fun h => hy (BitVec.toInt_inj.1 h)
  obtain ⟨hlt, hpos, hneg⟩ := tmod_bounds (readGp s x).toInt hy'
  obtain ⟨t, hnext, hres, hz, hn, hc, hframe⟩ :=
    mulDivInto_spec z (divRes (readGp s x) (readGp s y)) (divCarry (readGp s x) (readGp s y)) s
  exact ⟨t, (readGp s x).toInt.tdiv (readGp s y).toInt, (readGp s x).toInt.tmod (readGp s y).toInt,
    (exec_div2 hy x z).trans hnext, (Int.mul_tdiv_add_tmod _ _).symm, hlt, hpos, hneg, hres, hz, hn,
    hc ▸ divCarry_iff _ _, hframe⟩

end Sys2Proof.Machine
end
